-- ==== Sys2Proof/Word.lean ====
section
/-!
DEFINITION. The value types of the block (00_scope.md R8, R11; 30_encoding.md R50): every quantity is unsigned, and
what the spec shifts, masks or slices is a bit vector, bit 0 the least significant (R13).
-/

namespace Sys2Proof

/-- `u32` (R11): a polynomial, a seed, an accumulator, a table entry, a digest word. -/
abbrev Word := BitVec 32

/-- `u8` (R11): an input byte, a table index, one byte of the digest. -/
abbrev Byte := BitVec 8

/-- A command word `cmd[71:0]` (30_encoding.md R50). -/
abbrev CmdWord := BitVec 72

end Sys2Proof
end

