-- ==== Sys2Proof/Config.lean ====
section
/-!
DEFINITION. What is fixed for the block (00_scope.md R8, R9), the parameters the spec leaves open (R10), and the free
values. An `opaque` constant has no body: nothing can be proved of its value.
-/

namespace Sys2Proof

/-- `ROUNDS` (R8): rounds per table entry. -/
def Config.rounds : Nat := 8

/-- `TABLE_ENTRIES` (R8). -/
def Config.tableEntries : Nat := 256

/-- `DEFAULT_POLY` (R9). -/
def Config.defaultPoly : Word := 0xEDB88320#32

/-- `DEFAULT_SEED` (R9). -/
def Config.defaultSeed : Word := 0xFFFFFFFF#32

/-- Free value: `POLY` after the n-th hardware-reset event of a source of free values (10_state.md R34 "unspecified";
assumptions 5 and 12). The first argument is the source (each copy of the block has its own), the second is n. -/
opaque Config.resetPoly : Nat → Nat → Word

/-- Free value: `SEED` after the n-th hardware-reset event of a source (R34; assumptions 5 and 12). -/
opaque Config.resetSeed : Nat → Nat → Word

/-- Free value: `ACC` after the n-th hardware-reset event of a source (R34; assumptions 5 and 12). -/
opaque Config.resetAcc : Nat → Nat → Word

/-- Free values: `TABLE[i]` after the n-th hardware-reset event of a source, "each entry independently" (R34;
assumptions 5 and 12). -/
opaque Config.resetEntry : Nat → Nat → Byte → Word

/-- `NUM_INSTANCES` is one more than this: R10 and 60_exceptions.md R122 leave it open but at least 1 (assumption 7). -/
opaque Config.furtherInstances : Nat

/-- `NUM_INSTANCES` (R10, R122): how many independent copies of the block a system has. -/
def Config.numInstances : Nat := Config.furtherInstances + 1

/-! The open parameters on which "no rule depends" (R10): each latency is some finite number of cycles
(70_reset_and_hazards.md R134), and no definition of the model uses any of them (assumption 7). -/

opaque Config.latTbuild : Nat
opaque Config.latNew : Nat
opaque Config.latReset : Nat
opaque Config.latUpdate : Nat
opaque Config.latFinalize : Nat
opaque Config.latFinalize32 : Nat
opaque Config.latTread : Nat

/-- `HWRESET_POLARITY` (R10, 30_encoding.md R63): whether the pin is active high. -/
opaque Config.hwresetPolarity : Bool

/-- `HWRESET_SYNC` (R10, R63): whether the pin is sampled synchronously. -/
opaque Config.hwresetSync : Bool

end Sys2Proof
end

