-- ==== Sys2Proof/Syntax.lean ====
section
/-!
DEFINITION. The seven commands of the block, one constructor per row of spec/opcode_table.json (30_encoding.md R55).
This is the abstract command type of R57, `TBUILD(u32) | NEW(u32, u32) | RESET | UPDATE(u8) | FINALIZE | FINALIZE32 |
TREAD(u8)`: operand types are exactly as wide as the fields, and every value of every operand is legal (00_scope.md R9).
-/

namespace Sys2Proof

inductive Instr where
  /-- `TBUILD poly` (40_table_builder.md R69). -/
  | tbuild (poly : Word)
  /-- `NEW poly, seed` (41_engine_lifecycle.md R76). -/
  | new (poly : Word) (seed : Word)
  /-- `RESET` (41_engine_lifecycle.md R78); not the hardware reset (70_reset_and_hazards.md R127). -/
  | reset
  /-- `UPDATE imm8` (42_engine_update.md R85). -/
  | update (imm8 : Byte)
  /-- `FINALIZE` (43_engine_finalize.md R95). -/
  | finalize
  /-- `FINALIZE32` (43_engine_finalize.md R96). -/
  | finalize32
  /-- `TREAD imm8` (40_table_builder.md R70). -/
  | tread (imm8 : Byte)
  deriving DecidableEq, Repr

end Sys2Proof
end

