-- ==== Sys2Proof/WellFormed.lean ====
section
/-!
DEFINITION. Well-formed command words, by the mask and match of the opcode map (30_encoding.md R51 to R55). A term of
`Instr` is well formed by its type (every operand value is legal, 00_scope.md R9), so what can be ill formed is a word:
the rule here is R55's `(w AND mask) = match`, written apart from the field tests of the decoder (R57), so that each
checks the other. The check of a written script line is `ScriptLine.wellFormed` (Machine/Script.lean).
-/

namespace Sys2Proof

/-- One row of R55: mnemonic, match value, format mask. -/
structure OpcodeRow where
  mnemonic : String
  pattern  : CmdWord
  mask     : CmdWord
  deriving DecidableEq, Repr

/-- Format N (R51): no operand, all other bits zero. -/
def maskN : CmdWord := 0xFFFFFFFFFFFFFFFFFF#72
/-- Format P (R52): a polynomial in `a`, `b` zero. -/
def maskP : CmdWord := 0xFF00000000FFFFFFFF#72
/-- Format PS (R53): a polynomial in `a`, a seed in `b`. -/
def maskPS : CmdWord := 0xFF0000000000000000#72
/-- Format I8 (R54): an 8-bit immediate in `b[7:0]`, all other operand bits zero. -/
def maskI8 : CmdWord := 0xFFFFFFFFFFFFFFFF00#72

/-- The opcode map (R55), row for row. -/
def opcodeMap : List OpcodeRow := [
  ⟨"TBUILD",     0x010000000000000000#72, maskP⟩,
  ⟨"NEW",        0x020000000000000000#72, maskPS⟩,
  ⟨"RESET",      0x030000000000000000#72, maskN⟩,
  ⟨"UPDATE",     0x040000000000000000#72, maskI8⟩,
  ⟨"FINALIZE",   0x050000000000000000#72, maskN⟩,
  ⟨"FINALIZE32", 0x060000000000000000#72, maskN⟩,
  ⟨"TREAD",      0x070000000000000000#72, maskI8⟩]

/-- "A word `w` encodes the command of a row exactly when `(w AND mask) = match`" (R55). -/
def OpcodeRow.accepts (r : OpcodeRow) (w : CmdWord) : Bool := w &&& r.mask == r.pattern

/-- A command word is well formed when some row of the opcode map accepts it. -/
def CmdWord.wellFormed (w : CmdWord) : Bool := opcodeMap.any fun r => r.accepts w

/-- The mnemonic of a command, as the table spells it. -/
def Instr.mnemonic : Instr → String
  | .tbuild _   => "TBUILD"
  | .new _ _    => "NEW"
  | .reset      => "RESET"
  | .update _   => "UPDATE"
  | .finalize   => "FINALIZE"
  | .finalize32 => "FINALIZE32"
  | .tread _    => "TREAD"

end Sys2Proof
end

