-- ==== Sys2Proof/Decode.lean ====
section
/-!
DEFINITION. Decoding (30_encoding.md R57), total on every 72-bit word and rejecting by name (R59), and the encoder (R58).
-/

namespace Sys2Proof

/-- Why a word is reserved: the four cases of R59. -/
inductive Reserved where
  /-- R59 (a): `op` is 0x00 or in 0x08..0xFF, whatever `a` and `b` are. -/
  | unassignedOpcode
  /-- R59 (b): `op` = 0x01 with `b ≠ 0`. -/
  | formatP
  /-- R59 (c): `op` in 0x03, 0x05, 0x06 with `a ≠ 0` or `b ≠ 0`. -/
  | formatN
  /-- R59 (d): `op` in 0x04, 0x07 with `a ≠ 0` or `b[31:8] ≠ 0`. -/
  | formatI8
  deriving DecidableEq, Repr

/-- `Command ∪ reserved`, the result type of R57. -/
inductive Decoded where
  | command (i : Instr)
  | reserved (why : Reserved)
  deriving DecidableEq, Repr

/-- `op = cmd[71:64]` (R50). -/
def opField (w : CmdWord) : BitVec 8 := w.extractLsb' 64 8

/-- `a = cmd[63:32]` (R50). -/
def aField (w : CmdWord) : Word := w.extractLsb' 32 32

/-- `b = cmd[31:0]` (R50). -/
def bField (w : CmdWord) : Word := w.extractLsb' 0 32

/-- `b[31:8]`, the bits format I8 wants zero (R54). -/
def bHigh (b : Word) : BitVec 24 := b.extractLsb' 8 24

/-- `imm8 = b[7:0]` (R54, R56). -/
def imm8Of (b : Word) : Byte := b.extractLsb' 0 8

/-- R57, line for line. A reserved word gets the name of the case of R59 it falls under. -/
def decode (w : CmdWord) : Decoded :=
  let op := opField w
  let a := aField w
  let b := bField w
  if op = 0x01#8 then
    if b = 0#32 then .command (.tbuild a) else .reserved .formatP
  else if op = 0x02#8 then
    .command (.new a b)
  else if op = 0x03#8 then
    if a = 0#32 ∧ b = 0#32 then .command .reset else .reserved .formatN
  else if op = 0x04#8 then
    if a = 0#32 ∧ bHigh b = 0#24 then .command (.update (imm8Of b)) else .reserved .formatI8
  else if op = 0x05#8 then
    if a = 0#32 ∧ b = 0#32 then .command .finalize else .reserved .formatN
  else if op = 0x06#8 then
    if a = 0#32 ∧ b = 0#32 then .command .finalize32 else .reserved .formatN
  else if op = 0x07#8 then
    if a = 0#32 ∧ bHigh b = 0#24 then .command (.tread (imm8Of b)) else .reserved .formatI8
  else
    .reserved .unassignedOpcode

/-- `op ‖ a ‖ b` (R50). -/
def cmdWord (op : BitVec 8) (a b : Word) : CmdWord := op ++ a ++ b

/-- `zext_32` of an 8-bit operand (00_scope.md R12, R56). -/
def zext32 (i : Byte) : Word := i.setWidth 32

/-- R58: the one encoding of each command. -/
def encode : Instr → CmdWord
  | .tbuild p   => cmdWord 0x01#8 p 0#32
  | .new p s    => cmdWord 0x02#8 p s
  | .reset      => cmdWord 0x03#8 0#32 0#32
  | .update i   => cmdWord 0x04#8 0#32 (zext32 i)
  | .finalize   => cmdWord 0x05#8 0#32 0#32
  | .finalize32 => cmdWord 0x06#8 0#32 0#32
  | .tread i    => cmdWord 0x07#8 0#32 (zext32 i)

/-- The command word whose low `nbits` bits are those of `w` and whose other bits are 0, bit 0 the least significant. A
command is ONE 72-bit word (R50), so the table's numbering of bits is the word's own. -/
def tableWord (nbits w : Nat) : CmdWord := (BitVec.ofNat nbits w).setWidth 72

/-- What the decoder reads from a row of spec/opcode_table.json given as a number (the host's question). -/
def decodeTableWord (nbits w : Nat) : Option Instr :=
  match decode (tableWord nbits w) with
  | .command i => some i
  | .reserved _ => none

end Sys2Proof
end

