-- ==== Sys2Proof/Machine/State.lean ====
section
/-!
DEFINITION. The state of one `crc32_core` as plain data: the six components of 10_state.md R17, what stands at its two
ports (30_encoding.md R61, R65), and the model's own two numbers for free values. Faults, refusals, the state after reset.
-/

namespace Sys2Proof.Machine

/-- The table store (20_memory.md R36) as a list of (index, 32-bit entry) pairs, indices rising, no entry equal to what
an unlisted index reads as. The cell is a whole entry: "there is no byte address inside an entry" (R36; assumption 2). -/
abbrev Memory := List (Nat × Word)

/-- What a completed command returns (30_encoding.md R61). -/
inductive Response where
  /-- `Ack`: the command completed, no payload. -/
  | ack
  /-- `Word(w)`: a 32-bit number, no byte order (20_memory.md R41). -/
  | word (w : Word)
  /-- `Bytes4([d0, d1, d2, d3])`: an ordered sequence, `d0` first. -/
  | bytes4 (ds : Vector Byte 4)
  deriving DecidableEq, Repr

/-- What the host can do to the block (70_reset_and_hazards.md R136). -/
inductive HostEvent where
  /-- Present one command word on the command port (30_encoding.md R50). -/
  | command (w : CmdWord)
  /-- Assert the hardware reset (70_reset_and_hazards.md R126). -/
  | hardwareReset
  deriving DecidableEq, Repr

/-- The block raises no exception of any kind: "The complete list of exception causes is empty" (60_exceptions.md R113),
so no instruction and no event can answer a fault. -/
inductive Fault where
  deriving DecidableEq, Repr

/-- Why a command is refused: it has no next state and no response (00_scope.md R16, 60_exceptions.md R116). -/
inductive Refusal where
  /-- Raised by a dispatch arm that has no meaning yet; no arm of this model does. Safe: nothing can be proved of it. -/
  | notModelled (mnemonic : String)
  /-- Raised by `step` for a word that encodes no command, in every state (R115). Safe: the spec defines no effect. -/
  | reserved (why : Reserved)
  /-- Raised by `TREAD` while `TVALID = 0` (R114). Safe: the spec defines no effect. -/
  | noTable
  /-- Raised by `RESET`, `UPDATE`, `FINALIZE`, `FINALIZE32` while `EVALID = 0` (R114). Safe: the spec defines no effect. -/
  | noEngine
  deriving DecidableEq, Repr

/-- The whole machine. -/
structure State where
  /-- `POLY` (R19): the polynomial the table store was built from. -/
  poly      : Word
  /-- `TVALID` (R20): the table store holds a complete table. -/
  tvalid    : Bool
  /-- `TABLE[0..255]` (R22). -/
  table     : Memory
  /-- `SEED` (R23). -/
  seed      : Word
  /-- `ACC` (R24). -/
  acc       : Word
  /-- `EVALID` (R21): an engine is constructed on the current table. -/
  evalid    : Bool
  /-- What the host has yet to present, first event first (R65, R136; assumption 3). -/
  input     : List HostEvent
  /-- The responses given so far, first response first (R61, R65; assumption 4). -/
  responses : List Response
  /-- The model's own: hardware-reset events so far, an argument of the free values they leave (assumption 5). -/
  resets    : Nat
  /-- The model's own: which source the free values come from, one for each copy of the block (R122; assumptions 5, 12).
  No command reads or writes it: copies "have no identifiers visible to commands". -/
  source    : Nat
  deriving DecidableEq, Repr

/-- The hardware-reset state (R34, R126): both valid bits 0. The spec leaves `POLY`, `TABLE`, `SEED` and `ACC`
unspecified; the zeros here are the model's (DESIGN CHOICE, unsafe; assumption 1). Nothing is at the ports. -/
def State.reset : State where
  poly      := 0#32
  tvalid    := false
  table     := []
  seed      := 0#32
  acc       := 0#32
  evalid    := false
  input     := []
  responses := []
  resets    := 0
  source    := 0

end Sys2Proof.Machine
end

