-- ==== Sys2Proof/Machine/Operands.lean ====
section
/-!
DEFINITION. The two operand forms that need computing (30_encoding.md R56): every other operand is its field as it
stands. No operand is a register number, scaled, shifted or sign-extended.
-/

namespace Sys2Proof.Machine

/-- The index of `UPDATE`'s one table read: `ACC[7:0] XOR imm8`, 8 bits, so always in range (42_engine_update.md R83,
R85, R88). -/
def foldIndex (a : Word) (b : Byte) : Byte := a.extractLsb' 0 8 ^^^ b

/-- The location of a table index: the index itself, unscaled (20_memory.md R36, R46). -/
def tableAddress (i : Byte) : Nat := i.toNat

end Sys2Proof.Machine
end

