-- ==== Sys2Proof/Machine/Ops.lean ====
section
/-!
DEFINITION. The named operations: the table store, the source's functions (`round`, `entry`, `build_table`, `fold1`,
`fold`, `digest32`, `ser_be`, `be_value`), the writes commands share, the fetch of the next host event, and the hardware
reset. There is no operation for taking an exception or returning from one: the block has none (60_exceptions.md R113,
R119, R120).
-/

namespace Sys2Proof.Machine

/-! ## The table store (20_memory.md R36, R37) -/

/-- What an index that is not listed reads as. DESIGN CHOICE (assumption 2). -/
def Memory.unlisted : Word := 0#32

/-- The canonical form: indices strictly rising and below 256, no entry equal to `Memory.unlisted`. -/
abbrev Memory.wf (m : Memory) : Prop :=
  m.Pairwise (fun c d => c.1 < d.1) ∧ ∀ c ∈ m, c.1 < Config.tableEntries ∧ c.2 ≠ Memory.unlisted

/-- The entry at an address of the table space. -/
def Memory.read : Memory → Nat → Word
  | [], _ => Memory.unlisted
  | (b, v) :: m, a => if b = a then v else Memory.read m a

/-- `TABLE[i]` (00_scope.md R15). -/
def Memory.entryAt (m : Memory) (i : Byte) : Word := m.read (tableAddress i)

/-- The cells of `n` consecutive entries from address `a` on, entry `i` being `f i`. -/
def Memory.cellsFrom (f : Byte → Word) (a : Nat) : Nat → Memory
  | 0 => []
  | n + 1 =>
    let v := f (BitVec.ofNat 8 a)
    if v = Memory.unlisted then Memory.cellsFrom f (a + 1) n else (a, v) :: Memory.cellsFrom f (a + 1) n

/-- `for i in 0..255: TABLE[i] <- f i`, the only write of the table space: it is written "only as a whole" (10_state.md
R22), so what the store held before does not matter. -/
def Memory.writeAll (f : Byte → Word) : Memory := Memory.cellsFrom f 0 Config.tableEntries

/-! ## The table builder's function (40_table_builder.md R66 to R68) -/

/-- `round(p, v)` (R66): the low bit is tested before the logical shift. -/
def round (p v : Word) : Word := if v.getLsbD 0 then (v >>> 1) ^^^ p else v >>> 1

/-- `round(p, ·)` applied `n` times. -/
def rounds (p : Word) : Nat → Word → Word
  | 0, v => v
  | n + 1, v => rounds p n (round p v)

/-- `entry(p, i)` (R67): exactly 8 rounds from `zext_32(i)`. -/
def entry (p : Word) (i : Byte) : Word := rounds p Config.rounds (zext32 i)

/-- `build_table(p)` (R68). -/
def buildTable (p : Word) : Memory := Memory.writeAll (entry p)

/-! ## The engine's functions (42_engine_update.md R83, R84; 43_engine_finalize.md R93, R94) -/

/-- `fold1(T, a, b)` (R83); both uses of the accumulator are its value before this byte. -/
def fold1 (T : Memory) (a : Word) (b : Byte) : Word := (a >>> 8) ^^^ T.entryAt (foldIndex a b)

/-- `fold(T, a, bs)` (R84): the first byte is folded first. -/
def fold (T : Memory) (a : Word) : List Byte → Word
  | [] => a
  | b :: bs => fold T (fold1 T a b) bs

/-- `digest32(a)` (R93): the complement on all 32 bits. -/
def digest32 (a : Word) : Word := ~~~a

/-- `ser_be(w)` (R94): most significant byte first. -/
def serBe (w : Word) : Vector Byte 4 :=
  #v[w.extractLsb' 24 8, w.extractLsb' 16 8, w.extractLsb' 8 8, w.extractLsb' 0 8]

/-- `be_value(ds)` (R94): `d0 ‖ d1 ‖ d2 ‖ d3`. -/
def beValue (ds : Vector Byte 4) : Word := ds[0] ++ ds[1] ++ ds[2] ++ ds[3]

/-! ## The writes that commands share (40_table_builder.md R69, 41_engine_lifecycle.md R76, R77) -/

/-- `POLY <- poly; TABLE <- build_table(poly); TVALID <- 1`, in one step (20_memory.md R43). -/
def State.loadTable (s : State) (p : Word) : State :=
  { s with poly := p, table := buildTable p, tvalid := true }

/-- `SEED <- seed; ACC <- seed; EVALID <- 1` (R76). -/
def State.startEngine (s : State) (seed : Word) : State :=
  { s with seed := seed, acc := seed, evalid := true }

/-- `EVALID <- 0`: the engine ends; `SEED` and `ACC` keep their values, unreadable (R69). -/
def State.endEngine (s : State) : State := { s with evalid := false }

/-- `ACC <- a`. -/
def State.setAcc (s : State) (a : Word) : State := { s with acc := a }

/-- `respond r` (00_scope.md R15): the command's one response. -/
def State.respond (s : State) (r : Response) : State := { s with responses := s.responses ++ [r] }

/-! ## The host's side (30_encoding.md R65, 70_reset_and_hazards.md R126, R136) -/

/-- The next host event and the state with it taken off the input, or none when the host presents nothing. -/
def State.fetch (s : State) : Option (HostEvent × State) :=
  match s.input with
  | [] => none
  | e :: rest => some (e, { s with input := rest })

/-- Hardware reset (R126): the valid bits go to 0 and `POLY`, `TABLE`, `SEED`, `ACC` become unspecified, here free
values of this copy's source, fresh for each of its resets (assumption 5). No response (R126).

DESIGN CHOICE (assumption 12): the free values depend on the source and the reset count alone. Copies with sources of
their own have unrelated values; two runs of ONE source get equal values at equal counts, which the spec leaves open. -/
def State.hardwareReset (s : State) : State :=
  { s with
    poly   := Config.resetPoly s.source s.resets
    tvalid := false
    table  := Memory.writeAll (Config.resetEntry s.source s.resets)
    seed   := Config.resetSeed s.source s.resets
    acc    := Config.resetAcc s.source s.resets
    evalid := false
    resets := s.resets + 1 }

end Sys2Proof.Machine
end

