-- ==== Sys2Proof/Machine/Flags.lean ====
section
/-!
DEFINITION. The block has no flags and no condition codes (10_state.md R31): no command computes one. What it has are
the two valid bits, which decide whether a command has a meaning (60_exceptions.md R114); their tests stand here.
-/

namespace Sys2Proof.Machine

/-- A command whose precondition is `TVALID = 1` (R114: `TREAD`): refused otherwise. -/
def State.withTable (s : State) (t : State) : Host.Outcome State Fault Refusal :=
  match s.tvalid with
  | true => .next t
  | false => .refused .noTable

/-- A command whose precondition is `EVALID = 1` (R114: `RESET`, `UPDATE`, `FINALIZE`, `FINALIZE32`): refused otherwise. -/
def State.withEngine (s : State) (t : State) : Host.Outcome State Fault Refusal :=
  match s.evalid with
  | true => .next t
  | false => .refused .noEngine

end Sys2Proof.Machine
end

