-- ==== Sys2Proof/Machine/Finalize.lean ====
section
/-!
DEFINITION. Finalisation, `FINALIZE` and `FINALIZE32` (43_engine_finalize.md R95, R96). Neither writes the block's state.
-/

namespace Sys2Proof.Machine

/-- `FINALIZE` (R95): `respond Bytes4(ser_be(NOT ACC))`. -/
def execFinalize (s : State) : Host.Outcome State Fault Refusal :=
  s.withEngine (s.respond (.bytes4 (serBe (digest32 s.acc))))

/-- `FINALIZE32` (R96): `respond Word(NOT ACC)`, after the complement (90_conflicts.md C1). -/
def execFinalize32 (s : State) : Host.Outcome State Fault Refusal :=
  s.withEngine (s.respond (.word (digest32 s.acc)))

end Sys2Proof.Machine
end

