-- ==== Sys2Proof/Machine/Lifecycle.lean ====
section
/-!
DEFINITION. The engine's construction and reset, `NEW` and `RESET` (41_engine_lifecycle.md R76, R78).
-/

namespace Sys2Proof.Machine

/-- `NEW poly, seed` (R76): never refused; the state after it keeps no trace of what came before (10_state.md R35). -/
def execNew (poly seed : Word) (s : State) : Host.Outcome State Fault Refusal :=
  .next (((s.loadTable poly).startEngine seed).respond .ack)

/-- `RESET` (R78): `ACC <- SEED`. -/
def execReset (s : State) : Host.Outcome State Fault Refusal :=
  s.withEngine ((s.setAcc s.seed).respond .ack)

end Sys2Proof.Machine
end

