-- ==== Sys2Proof/Machine/TableBuilder.lean ====
section
/-!
DEFINITION. The table builder's commands, `TBUILD` and `TREAD` (40_table_builder.md R69, R70).
-/

namespace Sys2Proof.Machine

/-- `TBUILD poly` (R69): never refused; ends any engine. -/
def execTbuild (poly : Word) (s : State) : Host.Outcome State Fault Refusal :=
  .next (((s.loadTable poly).endEngine).respond .ack)

/-- `TREAD imm8` (R70): `respond Word(TABLE[imm8])`; no state is written; `EVALID` is not consulted. -/
def execTread (imm8 : Byte) (s : State) : Host.Outcome State Fault Refusal :=
  s.withTable (s.respond (.word (s.table.entryAt imm8)))

end Sys2Proof.Machine
end

