-- ==== Sys2Proof/Machine/Update.lean ====
section
/-!
DEFINITION. The byte-folding update, `UPDATE` (42_engine_update.md R85).
-/

namespace Sys2Proof.Machine

/-- `UPDATE imm8` (R85): `ACC <- fold1(TABLE, ACC, imm8)`. The precondition is `EVALID = 1` alone: it "implies
`TVALID = 1`" in every reachable state (10_state.md R28; assumption 9). -/
def execUpdate (imm8 : Byte) (s : State) : Host.Outcome State Fault Refusal :=
  s.withEngine ((s.setAcc (fold1 s.table s.acc imm8)).respond .ack)

end Sys2Proof.Machine
end

