-- ==== Sys2Proof/Machine/Dispatch.lean ====
section
/-!
DEFINITION. One arm per command of spec/opcode_table.json.
-/

namespace Sys2Proof.Machine

/-- The effect of one decoded command: the next state with its response, or a refusal (00_scope.md R16). -/
def exec (i : Instr) (s : State) : Host.Outcome State Fault Refusal :=
  match i with
  | .tbuild poly => Sys2Proof.Machine.execTbuild poly s
  | .new poly seed => Sys2Proof.Machine.execNew poly seed s
  | .reset => Sys2Proof.Machine.execReset s
  | .update imm8 => Sys2Proof.Machine.execUpdate imm8 s
  | .finalize => Sys2Proof.Machine.execFinalize s
  | .finalize32 => Sys2Proof.Machine.execFinalize32 s
  | .tread imm8 => Sys2Proof.Machine.execTread imm8 s

end Sys2Proof.Machine
end

