-- ==== Sys2Proof/Machine/Step.lean ====
section
/-!
DEFINITION. One step: the block takes the next host event (30_encoding.md R65, 70_reset_and_hazards.md R136).
-/

namespace Sys2Proof.Machine

/-- One step. With nothing presented the state persists unchanged (41_engine_lifecycle.md R81, 70 R137). A hardware
reset is applied (R126). A command word is decoded first, and a reserved word is refused whatever the state; then the
command runs (60_exceptions.md R115, R118). -/
def step (s : State) : Host.Outcome State Fault Refusal :=
  match s.fetch with
  | none => .next s
  | some (.hardwareReset, s') => .next s'.hardwareReset
  | some (.command w, s') =>
    match decode w with
    | .reserved why => .refused (.reserved why)
    | .command i => exec i s'

/-- `s` with the command word of a row of spec/opcode_table.json presented next, before what the host already had. -/
def State.withFetchWord (s : State) (nbits w : Nat) : State :=
  { s with input := .command (tableWord nbits w) :: s.input }

end Sys2Proof.Machine
end

