-- ==== Sys2Proof/Machine/Script.lean ====
section
/-!
DEFINITION. Host scripts and the assembler's lines (30_encoding.md R64, R65; 42_engine_update.md R86, R87;
44_oneshot_compute.md R100 to R106). None of this is state of the block: it is what the host issues.
-/

namespace Sys2Proof.Machine

/-- `run(S, script)` (R65): the left fold of the commands' effects; a refused command refuses the script from there. -/
def runScript : List Instr → State → Host.Outcome State Fault Refusal
  | [], s => .next s
  | c :: cs, s =>
    match exec c s with
    | .next t => runScript cs t
    | .fault r => .fault r
    | .refused r => .refused r

/-- `compute(p, s, bs)` (R100): a pure function, the value of a one-shot. -/
def compute (p s : Word) (bs : List Byte) : Word := digest32 (fold (buildTable p) s bs)

/-- The commands of `UPDATES bs` (R86): none for an empty chunk. -/
def updates (bs : List Byte) : List Instr := bs.map .update

/-- The common expansion of the one-shots (R103): `NEW p, s; UPDATES bs; FINALIZE32`. -/
def oneshot (p s : Word) (bs : List Byte) : List Instr := .new p s :: (updates bs ++ [.finalize32])

/-- `[buffer[start], …, buffer[start+length-1]]` (R87), the unambiguous start to start+length reading. -/
def bufferSlice {α : Type} (buffer : List α) (start length : Nat) : List α := (buffer.drop start).take length

/-- One line of a script as written (R64): its numbers may still be too large for their fields. -/
inductive ScriptLine where
  | tbuild (poly : Nat)
  | new (poly seed : Nat)
  | reset
  | update (imm8 : Nat)
  | finalize
  | finalize32
  | tread (imm8 : Nat)
  /-- `UPDATES bytes` (R86). -/
  | updates (bytes : List Nat)
  /-- `UPDATEBUF buffer, start, length` (R87). -/
  | updatebuf (buffer : List Nat) (start length : Nat)
  /-- `COMPUTE1 bytes` (R104). -/
  | compute1 (bytes : List Nat)
  /-- `COMPUTE2 seed, bytes` (R105). -/
  | compute2 (seed : Nat) (bytes : List Nat)
  /-- `COMPUTE3 poly, seed, bytes` (R106). -/
  | compute3 (poly seed : Nat) (bytes : List Nat)
  deriving DecidableEq, Repr

/-- `poly` and `seed` "must lie in 0..0xFFFFFFFF" (R64). -/
def fitsWord (n : Nat) : Bool := n < 2 ^ 32

/-- `imm8` must lie "in 0..0xFF" (R64). -/
def fitsByte (n : Nat) : Bool := n < 2 ^ 8

/-- The range checks of R64 and, for `UPDATEBUF`, `start + length ≤ len(buffer)` (R87). -/
def ScriptLine.wellFormed : ScriptLine → Bool
  | .tbuild p => fitsWord p
  | .new p s => fitsWord p && fitsWord s
  | .reset => true
  | .update i => fitsByte i
  | .finalize => true
  | .finalize32 => true
  | .tread i => fitsByte i
  | .updates bs => bs.all fitsByte
  | .updatebuf buf start length => buf.all fitsByte && start + length ≤ buf.length
  | .compute1 bs => bs.all fitsByte
  | .compute2 s bs => fitsWord s && bs.all fitsByte
  | .compute3 p s bs => fitsWord p && fitsWord s && bs.all fitsByte

/-- A written number as a 32-bit operand. -/
def wordOf (n : Nat) : Word := BitVec.ofNat 32 n

/-- Written numbers as bytes. -/
def bytesOf (ns : List Nat) : List Byte := ns.map (BitVec.ofNat 8)

/-- The commands a line stands for (R64, R86, R87, R103 to R106). -/
def ScriptLine.expand : ScriptLine → List Instr
  | .tbuild p => [.tbuild (wordOf p)]
  | .new p s => [.new (wordOf p) (wordOf s)]
  | .reset => [.reset]
  | .update i => [.update (BitVec.ofNat 8 i)]
  | .finalize => [.finalize]
  | .finalize32 => [.finalize32]
  | .tread i => [.tread (BitVec.ofNat 8 i)]
  | .updates bs => Sys2Proof.Machine.updates (bytesOf bs)
  | .updatebuf buf start length => Sys2Proof.Machine.updates (bytesOf (bufferSlice buf start length))
  | .compute1 bs => oneshot Config.defaultPoly Config.defaultSeed (bytesOf bs)
  | .compute2 s bs => oneshot Config.defaultPoly (wordOf s) (bytesOf bs)
  | .compute3 p s bs => oneshot (wordOf p) (wordOf s) (bytesOf bs)

/-- Assembling a line: an ill-formed line "assembles to nothing and is an error of the script" (R64, R87). -/
def assemble (l : ScriptLine) : Option (List Instr) := if l.wellFormed then some l.expand else none

/-- The host events that present a list of commands in order (R65). -/
def presented (cs : List Instr) : List HostEvent := cs.map fun c => .command (encode c)

end Sys2Proof.Machine
end

