-- ==== Sys2Proof/Machine/SourceText.lean ====
section
/-!
DEFINITION. The written form of a script line (30_encoding.md R64): the mnemonic in capitals, then the operands separated
by commas; `0x` hexadecimal or plain decimal numbers; a semicolon starts a comment; `bytes` is a bracketed list or an
ASCII string in double quotes. What R64 does not fix is a convention of the model (assumption 8). A line is its list of
characters.
-/

namespace Sys2Proof.Machine

/-- Space and tab separate (assumption 8). -/
def isBlank (c : Char) : Bool := c = ' ' || c = '\t'

def trimBlanks (cs : List Char) : List Char :=
  ((cs.dropWhile isBlank).reverse.dropWhile isBlank).reverse

/-- "A semicolon starts a comment that runs to the end of the line" (R64), wherever it stands. -/
def dropComment (cs : List Char) : List Char := cs.takeWhile (· ≠ ';')

/-- The value of a digit character, either letter case for hexadecimal (assumption 8). -/
def digitValue (c : Char) : Option Nat :=
  let n := c.toNat
  if 48 ≤ n ∧ n ≤ 57 then some (n - 48)
  else if 65 ≤ n ∧ n ≤ 70 then some (n - 55)
  else if 97 ≤ n ∧ n ≤ 102 then some (n - 87)
  else none

/-- The number a digit string continues from `acc`, in the given base. -/
def digitsFrom (base acc : Nat) : List Char → Option Nat
  | [] => some acc
  | c :: cs =>
    match digitValue c with
    | none => none
    | some d => if d < base then digitsFrom base (acc * base + d) cs else none

/-- "A number is hexadecimal with the prefix `0x` or decimal without one" (R64). -/
def parseNumber : List Char → Option Nat
  | [] => none
  | ['0', 'x'] => none
  | '0' :: 'x' :: ds => digitsFrom 16 0 ds
  | ds => digitsFrom 10 0 ds

/-- The comma-separated operands of a line; a comma inside brackets or inside a string does not separate. -/
def splitOperands (inList inText : Bool) (seen : List Char) : List Char → List (List Char)
  | [] => [trimBlanks seen.reverse]
  | c :: cs =>
    if c = '"' ∧ inList = false then splitOperands inList (!inText) (c :: seen) cs
    else if inText then splitOperands inList inText (c :: seen) cs
    else if c = '[' then splitOperands true inText (c :: seen) cs
    else if c = ']' then splitOperands false inText (c :: seen) cs
    else if c = ',' ∧ inList = false then trimBlanks seen.reverse :: splitOperands false false [] cs
    else splitOperands inList inText (c :: seen) cs

/-- No operand at all for a blank rest of line. -/
def operandsOf (cs : List Char) : List (List Char) :=
  if trimBlanks cs = [] then [] else splitOperands false false [] cs

/-- The values of a list of numbers, if every one is a number. -/
def parseNumbers : List (List Char) → Option (List Nat)
  | [] => some []
  | n :: ns =>
    match parseNumber n, parseNumbers ns with
    | some v, some vs => some (v :: vs)
    | _, _ => none

/-- The ASCII codes of the characters of a string (00_scope.md R14): no quote inside, no code above 127. -/
def asciiCodes : List Char → Option (List Nat)
  | [] => some []
  | c :: cs =>
    if c = '"' ∨ 128 ≤ c.toNat then none
    else
      match asciiCodes cs with
      | some ns => some (c.toNat :: ns)
      | none => none

/-- `bytes`: "either a bracketed list of `imm8` values …, or an ASCII string in double quotes"; `[]` and `""` are the
empty sequence (R64). -/
def parseBytes : List Char → Option (List Nat)
  | '[' :: cs =>
    match cs.reverse with
    | ']' :: inner => parseNumbers (operandsOf inner.reverse)
    | _ => none
  | '"' :: cs =>
    match cs.reverse with
    | '"' :: inner => asciiCodes inner.reverse
    | _ => none
  | _ => none

/-- The script line of a mnemonic and its operand texts, in the operand order of R55 and R64. -/
def lineOf (name : List Char) (ops : List (List Char)) : Option ScriptLine :=
  if name = ['T', 'B', 'U', 'I', 'L', 'D'] then
    match ops with
    | [p] => (parseNumber p).map .tbuild
    | _ => none
  else if name = ['N', 'E', 'W'] then
    match ops with
    | [p, s] => (parseNumber p).bind fun vp => (parseNumber s).map (.new vp)
    | _ => none
  else if name = ['R', 'E', 'S', 'E', 'T'] then
    match ops with
    | [] => some .reset
    | _ => none
  else if name = ['U', 'P', 'D', 'A', 'T', 'E'] then
    match ops with
    | [i] => (parseNumber i).map .update
    | _ => none
  else if name = ['F', 'I', 'N', 'A', 'L', 'I', 'Z', 'E'] then
    match ops with
    | [] => some .finalize
    | _ => none
  else if name = ['F', 'I', 'N', 'A', 'L', 'I', 'Z', 'E', '3', '2'] then
    match ops with
    | [] => some .finalize32
    | _ => none
  else if name = ['T', 'R', 'E', 'A', 'D'] then
    match ops with
    | [i] => (parseNumber i).map .tread
    | _ => none
  else if name = ['U', 'P', 'D', 'A', 'T', 'E', 'S'] then
    match ops with
    | [bs] => (parseBytes bs).map .updates
    | _ => none
  else if name = ['U', 'P', 'D', 'A', 'T', 'E', 'B', 'U', 'F'] then
    match ops with
    | [buf, start, length] =>
      (parseBytes buf).bind fun vb => (parseNumber start).bind fun vs => (parseNumber length).map (.updatebuf vb vs)
    | _ => none
  else if name = ['C', 'O', 'M', 'P', 'U', 'T', 'E', '1'] then
    match ops with
    | [bs] => (parseBytes bs).map .compute1
    | _ => none
  else if name = ['C', 'O', 'M', 'P', 'U', 'T', 'E', '2'] then
    match ops with
    | [s, bs] => (parseNumber s).bind fun vs => (parseBytes bs).map (.compute2 vs)
    | _ => none
  else if name = ['C', 'O', 'M', 'P', 'U', 'T', 'E', '3'] then
    match ops with
    | [p, s, bs] =>
      (parseNumber p).bind fun vp => (parseNumber s).bind fun vs => (parseBytes bs).map (.compute3 vp vs)
    | _ => none
  else none

/-- The commands a written line assembles to: none at all for a blank or comment line, `none` for an error of the
script (R64). -/
def assembleText (cs : List Char) : Option (List Instr) :=
  let body := trimBlanks (dropComment cs)
  if body = [] then some []
  else (lineOf (body.takeWhile fun c => !isBlank c) (operandsOf (body.dropWhile fun c => !isBlank c))).bind assemble

/-- A whole script, one line each; an error in any line is an error of the script. -/
def assembleLines : List (List Char) → Option (List Instr)
  | [] => some []
  | l :: ls =>
    match assembleText l, assembleLines ls with
    | some cs, some rest => some (cs ++ rest)
    | _, _ => none

end Sys2Proof.Machine
end

