-- ==== Sys2Proof/Machine/Instances.lean ====
section
/-!
DEFINITION. Several instances of the block in one system (60_exceptions.md R122): each has its own complete state and its
own command port, and copies share nothing, so what one copy does or is refused never touches another. The host's
interface (Machine/Core.lean) is one instance.
-/

namespace Sys2Proof.Machine

/-- One copy of the block: running in a state, or refused, with no next state of its own (00_scope.md R16). -/
inductive Copy where
  | running (s : State)
  | refused (r : Refusal)
  deriving DecidableEq, Repr

/-- What a copy is after a step of its own: a refusal ends that copy's run alone. -/
def Copy.after : Host.Outcome State Fault Refusal → Copy
  | .next t => .running t
  | .fault r => nomatch r
  | .refused r => .refused r

/-- A copy's own step; a refused copy has none (60_exceptions.md R114, R116). -/
def Copy.step : Copy → Copy
  | .running s => Copy.after (Sys2Proof.Machine.step s)
  | .refused r => .refused r

/-- `NUM_INSTANCES` copies (00_scope.md R10). -/
abbrev System := Vector Copy Config.numInstances

/-- A copy whose free values come from source `k`, right after its own hardware reset. -/
def Copy.powerUp (k : Nat) : Copy := .running (State.hardwareReset { State.reset with source := k })

/-- The copies "start independently (each from its own hardware reset)" (R122): copy `k` has source `k`, so nothing
equates what two copies hold where the spec says unspecified (assumptions 11 and 12). -/
def System.reset : System := Vector.ofFn fun k => Copy.powerUp k

/-- Copy `k` takes a step of its own; every other copy stays as it is, whether `k` goes on or is refused. -/
def System.step (sys : System) (k : Fin Config.numInstances) : System := sys.set k (Copy.step sys[k])

end Sys2Proof.Machine
end

