-- ==== Sys2Proof/Safety.lean ====
section
/-!
DEFINITION. What counts as a good state, a good run and an unobservable difference, in the terms claims use.
-/

namespace Sys2Proof.Machine

/-- The precondition of a command (60_exceptions.md R114): `TREAD` needs `TVALID = 1`; `RESET`, `UPDATE`, `FINALIZE`,
`FINALIZE32` need `EVALID = 1`; `TBUILD` and `NEW` need nothing. -/
def ready : Instr → State → Bool
  | .tbuild _, _ => true
  | .new _ _, _ => true
  | .reset, s => s.evalid
  | .update _, s => s.evalid
  | .finalize, s => s.evalid
  | .finalize32, s => s.evalid
  | .tread _, s => s.tvalid

/-- The invariant of the machine: the table store is in canonical form, an engine always has a table (10_state.md
R28 (a)), and a valid table is the table of `POLY` (R27). -/
abbrev State.Inv (s : State) : Prop :=
  s.table.wf ∧ (s.evalid = true → s.tvalid = true) ∧ (s.tvalid = true → s.table = buildTable s.poly)

/-- The six components of the block (10_state.md R17) are the same in both states. -/
abbrev State.sameBlock (s t : State) : Prop :=
  s.poly = t.poly ∧ s.tvalid = t.tvalid ∧ s.table = t.table ∧ s.seed = t.seed ∧ s.acc = t.acc ∧ s.evalid = t.evalid

/-- The states differ at most in what the spec calls unspecified or unreadable: `POLY` and `TABLE` while `TVALID = 0`,
`SEED` and `ACC` while `EVALID = 0` (R34), and the model's own reset counter and source of free values. -/
abbrev State.sameVisible (s t : State) : Prop :=
  s.tvalid = t.tvalid ∧ s.evalid = t.evalid
    ∧ (s.tvalid = true → s.poly = t.poly ∧ s.table = t.table)
    ∧ (s.evalid = true → s.seed = t.seed ∧ s.acc = t.acc)
    ∧ s.input = t.input ∧ s.responses = t.responses

/-- Two runs give the host the same: both go on and differ in nothing visible, or both stop for the same reason. -/
def outcomesAgree : Host.Outcome State Fault Refusal → Host.Outcome State Fault Refusal → Prop
  | .next s, .next t => s.sameVisible t
  | .fault a, .fault b => a = b
  | .refused a, .refused b => a = b
  | _, _ => False

/-- The operands of the `UPDATE`s of a script since its last `NEW` or `RESET`, in order, continuing `bs` (10_state.md
R28 (b)). -/
def bytesSinceStart (bs : List Byte) : List Instr → List Byte
  | [] => bs
  | .tbuild _ :: cs => bytesSinceStart bs cs
  | .new _ _ :: cs => bytesSinceStart [] cs
  | .reset :: cs => bytesSinceStart [] cs
  | .update b :: cs => bytesSinceStart (bs ++ [b]) cs
  | .finalize :: cs => bytesSinceStart bs cs
  | .finalize32 :: cs => bytesSinceStart bs cs
  | .tread _ :: cs => bytesSinceStart bs cs

/-- While there is an engine it has a table, and `ACC` is the fold of `bs` from `SEED` (R28). -/
abbrev State.FoldInv (bs : List Byte) (s : State) : Prop :=
  s.evalid = true → s.tvalid = true ∧ s.acc = fold s.table s.seed bs

/-- No two running copies of a system draw free values from the same source (assumptions 11 and 12). -/
def System.sourcesApart (sys : System) : Prop :=
  ∀ (j k : Fin Config.numInstances) (s t : State), sys[j] = .running s → sys[k] = .running t →
    s.source = t.source → j = k

/-- Whether a command is `TBUILD`, the one command that ends an engine without starting one (R21). -/
def isTbuild : Instr → Bool
  | .tbuild _ => true
  | .new _ _ => false
  | .reset => false
  | .update _ => false
  | .finalize => false
  | .finalize32 => false
  | .tread _ => false

/-- The condition of 42_engine_update.md R91: the top bytes `T[i][31:24]` are pairwise distinct. -/
def distinctTopBytes (T : Memory) : Prop :=
  ∀ i j : Byte, (T.entryAt i).extractLsb' 24 8 = (T.entryAt j).extractLsb' 24 8 → i = j

end Sys2Proof.Machine
end

