-- ==== Sys2Proof/Certificates/Slice0/Obligations.lean ====
section
/-!
DEFINITION. The statements for the provers. Each docstring names the rule it formalises. `s` is the state before, `t` the
state after; `exec i s = .next t` says that the command completes. An equation `t = { s with … }` says every component
the command writes and, by leaving the others out, its frame.
-/

open Sys2Proof Sys2Proof.Machine

/-! ## Encoding -/

/-- R58: the encoding of each command; decoding inverts it on every command; a word that decodes has no other encoding. -/
def Obligations.EncodeAndDecodeAreInverse : Prop :=
  ((∀ p, encode (.tbuild p) = cmdWord 0x01#8 p 0#32) ∧ (∀ p s, encode (.new p s) = cmdWord 0x02#8 p s)
    ∧ encode .reset = cmdWord 0x03#8 0#32 0#32 ∧ (∀ i, encode (.update i) = cmdWord 0x04#8 0#32 (zext32 i))
    ∧ encode .finalize = cmdWord 0x05#8 0#32 0#32 ∧ encode .finalize32 = cmdWord 0x06#8 0#32 0#32
    ∧ (∀ i, encode (.tread i) = cmdWord 0x07#8 0#32 (zext32 i)))
  ∧ (∀ c, decode (encode c) = .command c)
  ∧ (∀ w c, decode w = .command c → encode c = w)

/-- R55: the seven rows of the opcode map, and that a word encodes the command of a row exactly when masking it with the
row's mask gives the row's match; every other value of `op` is reserved. -/
def Obligations.DecodeFollowsOpcodeMap : Prop :=
  opcodeMap.map (fun r => (r.mnemonic, r.pattern, r.mask)) =
    [("TBUILD", 0x010000000000000000#72, 0xFF00000000FFFFFFFF#72),
     ("NEW", 0x020000000000000000#72, 0xFF0000000000000000#72),
     ("RESET", 0x030000000000000000#72, 0xFFFFFFFFFFFFFFFFFF#72),
     ("UPDATE", 0x040000000000000000#72, 0xFFFFFFFFFFFFFFFF00#72),
     ("FINALIZE", 0x050000000000000000#72, 0xFFFFFFFFFFFFFFFFFF#72),
     ("FINALIZE32", 0x060000000000000000#72, 0xFFFFFFFFFFFFFFFFFF#72),
     ("TREAD", 0x070000000000000000#72, 0xFFFFFFFFFFFFFFFF00#72)]
  ∧ (∀ r ∈ opcodeMap, ∀ w : CmdWord,
      w &&& r.mask = r.pattern ↔ ∃ i, decode w = .command i ∧ i.mnemonic = r.mnemonic)
  ∧ (∀ w : CmdWord, (opField w).toNat < 1 ∨ 7 < (opField w).toNat → decode w = .reserved .unassignedOpcode)

/-- R59, R115: exactly which words are reserved, and that `step` refuses each of them in every state. -/
def Obligations.ReservedWordsAreRefused : Prop :=
  (∀ w : CmdWord, (∃ why, decode w = .reserved why) ↔
      (opField w = 0x00#8 ∨ 0x08 ≤ (opField w).toNat)
      ∨ (opField w = 0x01#8 ∧ bField w ≠ 0#32)
      ∨ ((opField w = 0x03#8 ∨ opField w = 0x05#8 ∨ opField w = 0x06#8) ∧ (aField w ≠ 0#32 ∨ bField w ≠ 0#32))
      ∨ ((opField w = 0x04#8 ∨ opField w = 0x07#8) ∧ (aField w ≠ 0#32 ∨ bHigh (bField w) ≠ 0#24)))
  ∧ (∀ (s : State) w rest why, s.input = .command w :: rest → decode w = .reserved why →
      step s = .refused (.reserved why))

/-- Words written out from R50 to R58 and the encoding vectors X1, X5, X8, X11, X16 to X18, X4, X10, X14, X21. -/
def Obligations.SpecWordsDecode : Prop :=
  decode 0x01EDB8832000000000#72 = .command (.tbuild 0xEDB88320#32)
  ∧ decode 0x02EDB88320FFFFFFFF#72 = .command (.new 0xEDB88320#32 0xFFFFFFFF#32)
  ∧ decode 0x030000000000000000#72 = .command .reset
  ∧ decode 0x040000000000000031#72 = .command (.update 0x31#8)
  ∧ decode 0x050000000000000000#72 = .command .finalize
  ∧ decode 0x060000000000000000#72 = .command .finalize32
  ∧ decode 0x070000000000000080#72 = .command (.tread 0x80#8)
  ∧ decode 0x01EDB8832000000001#72 = .reserved .formatP
  ∧ decode 0x030000000100000000#72 = .reserved .formatN
  ∧ decode 0x040000000000000100#72 = .reserved .formatI8
  ∧ decode 0x000000000000000000#72 = .reserved .unassignedOpcode

/-! ## The step and the host -/

/-- When the next host event is a command word that decodes, the step is that command's effect on the state with the word
taken off the input: there is no program counter and nothing else moves (R30, R47, R57). -/
def Obligations.StepRunsDecodedCommand : Prop :=
  ∀ (s : State) w rest i, s.input = .command w :: rest → decode w = .command i →
    step s = exec i { s with input := rest }

/-- R65: presenting the words of a command list makes as many steps the left fold of the commands' effects, whatever the
host presents afterwards. -/
def Obligations.StepsAreLeftFoldOfScript : Prop :=
  ∀ (cs : List Instr) (rest : List HostEvent) (s : State),
    Host.Core.run Sys2Proof.core cs.length { s with input := presented cs ++ rest }
      = runScript cs { s with input := rest }

/-- R81, R137: with nothing presented the state persists unchanged for any number of steps. -/
def Obligations.IdleStatePersists : Prop :=
  ∀ (n : Nat) (s : State), s.input = [] → Host.Core.run Sys2Proof.core n s = .next s

/-- R126: a hardware reset applies in any state, clears both valid bits, and after it exactly `TBUILD` and `NEW` complete.
Three clauses rest on the model's own form of the state and not on R126's words alone: that the store stays canonical
(`t.table.wf`, assumption 2), that the list of responses given stays as it is (assumption 4), and that the event is taken
off the host's input and nothing else is (assumptions 3 and 6). -/
def Obligations.HardwareResetEndsEngineAndTable : Prop :=
  ∀ (s : State) rest, s.input = .hardwareReset :: rest →
    ∃ t, step s = .next t ∧ t.tvalid = false ∧ t.evalid = false ∧ t.responses = s.responses ∧ t.input = rest
      ∧ t.table.wf
      ∧ ∀ i, (∃ u, exec i t = .next u) ↔ (∃ p, i = .tbuild p) ∨ (∃ p a, i = .new p a)

/-- R34, R126: what the spec gives for the state after reset, and that it meets the invariant. The values of `POLY`,
`TABLE`, `SEED`, `ACC` there are the model's choice (assumption 1) and are not stated. -/
def Obligations.ResetStateMeetsInvariant : Prop :=
  State.reset.tvalid = false ∧ State.reset.evalid = false ∧ State.reset.Inv

/-- R61, R136: a step adds at most one response, only for a command that completes, and nothing unsolicited. -/
def Obligations.ResponsesComeOnlyFromCommands : Prop :=
  ∀ s t : State, step s = .next t →
    (t.responses = s.responses ∧ (s.input = [] ∨ ∃ rest, s.input = .hardwareReset :: rest))
    ∨ ∃ w rest i r, s.input = .command w :: rest ∧ decode w = .command i ∧ t.responses = s.responses ++ [r]

/-- R113 to R115, R118: every step is a next state or a refusal by one of three names (never a fault, never for want of
a meaning), and exactly when each refusal is the answer: a reserved word first, whatever the state; then `TREAD` with
`TVALID = 0`; then an engine command with `EVALID = 0`. The names are the model's. -/
def Obligations.StepIsNextOrNamedRefusal : Prop :=
  (∀ s : State, (∃ t, step s = .next t) ∨ (∃ why, step s = .refused (.reserved why))
    ∨ step s = .refused .noTable ∨ step s = .refused .noEngine)
  ∧ (∀ (s : State) why, step s = .refused (.reserved why) ↔
      ∃ w rest, s.input = .command w :: rest ∧ decode w = .reserved why)
  ∧ (∀ s : State, step s = .refused .noTable ↔
      ∃ w rest b, s.input = .command w :: rest ∧ decode w = .command (.tread b) ∧ s.tvalid = false)
  ∧ (∀ s : State, step s = .refused .noEngine ↔
      ∃ w rest i, s.input = .command w :: rest ∧ decode w = .command i ∧ s.evalid = false
        ∧ (i = .reset ∨ (∃ b, i = .update b) ∨ i = .finalize ∨ i = .finalize32))

/-! ## The results of the commands -/

/-- R69: `TBUILD` completes in every state; the table store holds `entry(poly, i)` at every index; the engine ends, `SEED`
and `ACC` keep their values. With polynomial 0 all entries are 0. -/
def Obligations.TbuildResult : Prop :=
  (∀ (p : Word) (s : State), ∃ t, exec (.tbuild p) s = .next t
    ∧ t.poly = p ∧ (∀ i : Byte, t.table.entryAt i = entry p i) ∧ t.tvalid = true ∧ t.evalid = false
    ∧ t.seed = s.seed ∧ t.acc = s.acc ∧ t.responses = s.responses ++ [Response.ack]
    ∧ t.input = s.input ∧ t.resets = s.resets ∧ t.source = s.source)
  ∧ (∀ p, encode (.tbuild p) = cmdWord 0x01#8 p 0#32)
  ∧ (∀ i : Byte, entry 0#32 i = 0#32)

/-- R76, R35: `NEW` completes in every state and leaves exactly the named state of the block. -/
def Obligations.NewResult : Prop :=
  (∀ (p a : Word) (s : State), ∃ t, exec (.new p a) s = .next t
    ∧ t.poly = p ∧ t.tvalid = true ∧ t.table = buildTable p ∧ (∀ i : Byte, t.table.entryAt i = entry p i)
    ∧ t.seed = a ∧ t.acc = a ∧ t.evalid = true ∧ t.responses = s.responses ++ [Response.ack]
    ∧ t.input = s.input ∧ t.resets = s.resets ∧ t.source = s.source)
  ∧ (∀ p a, encode (.new p a) = cmdWord 0x02#8 p a)

/-- R77: the state after `NEW` is the state after `TBUILD` followed by the three writes. -/
def Obligations.NewIsTbuildThenThreeWrites : Prop :=
  ∀ (p a : Word) (s : State), ∃ u, exec (.tbuild p) s = .next u
    ∧ exec (.new p a) s = .next { u with seed := a, acc := a, evalid := true }

/-- R78: `RESET` sets `ACC` to `SEED` when there is an engine and is refused when there is none; after `NEW` it changes
nothing of the block. -/
def Obligations.ResetCommandResult : Prop :=
  (∀ s : State, s.evalid = true →
    exec .reset s = .next { s with acc := s.seed, responses := s.responses ++ [Response.ack] })
  ∧ (∀ s : State, s.evalid = false → exec .reset s = .refused .noEngine)
  ∧ encode .reset = 0x030000000000000000#72
  ∧ (∀ (p a : Word) (s t : State), exec (.new p a) s = .next t → ∃ u, exec .reset t = .next u ∧ t.sameBlock u)

/-- R85: `UPDATE` folds one byte: the index is `ACC[7:0] XOR imm8`, and the new `ACC` is `(ACC >> 8) XOR TABLE[index]`; it
writes `ACC` only, and is refused without an engine. A byte equal to `ACC[7:0]` only shifts, when the table is that of
`POLY`. -/
def Obligations.UpdateResult : Prop :=
  (∀ (b : Byte) (s : State), s.evalid = true →
    exec (.update b) s = .next { s with
      acc := (s.acc >>> 8) ^^^ s.table.entryAt (s.acc.extractLsb' 0 8 ^^^ b)
      responses := s.responses ++ [Response.ack] })
  ∧ (∀ (b : Byte) (s : State), s.evalid = false → exec (.update b) s = .refused .noEngine)
  ∧ (∀ b, encode (.update b) = cmdWord 0x04#8 0#32 (zext32 b))
  ∧ (∀ s : State, s.Inv → s.evalid = true →
      ∃ t, exec (.update (s.acc.extractLsb' 0 8)) s = .next t ∧ t.acc = s.acc >>> 8)

/-- R95: `FINALIZE` responds the four bytes of `NOT ACC`, most significant first, and writes nothing; it is refused without
an engine; right after `NEW p, a` it responds the bytes of `NOT a`. -/
def Obligations.FinalizeResult : Prop :=
  (∀ s : State, s.evalid = true →
    exec .finalize s = .next { s with responses := s.responses ++
      [Response.bytes4 #v[(~~~s.acc).extractLsb' 24 8, (~~~s.acc).extractLsb' 16 8, (~~~s.acc).extractLsb' 8 8,
        (~~~s.acc).extractLsb' 0 8]] })
  ∧ (∀ s : State, s.evalid = false → exec .finalize s = .refused .noEngine)
  ∧ encode .finalize = 0x050000000000000000#72
  ∧ (∀ (p a : Word) (s t : State), exec (.new p a) s = .next t →
      exec .finalize t = .next { t with responses := t.responses ++ [Response.bytes4 (serBe (~~~a))] })

/-- R96: `FINALIZE32` responds `Word(NOT ACC)` and writes nothing; it is refused without an engine; right after `NEW p, a`
it responds `NOT a`. -/
def Obligations.Finalize32Result : Prop :=
  (∀ s : State, s.evalid = true →
    exec .finalize32 s = .next { s with responses := s.responses ++ [Response.word (~~~s.acc)] })
  ∧ (∀ s : State, s.evalid = false → exec .finalize32 s = .refused .noEngine)
  ∧ encode .finalize32 = 0x060000000000000000#72
  ∧ (∀ (p a : Word) (s t : State), exec (.new p a) s = .next t →
      exec .finalize32 t = .next { t with responses := t.responses ++ [Response.word (~~~a)] })

/-- R70: `TREAD` responds the entry at its index and writes nothing; it needs a valid table and no engine; while the
invariant holds the entry is `entry(POLY, i)`. -/
def Obligations.TreadResult : Prop :=
  (∀ (i : Byte) (s : State), s.tvalid = true →
    exec (.tread i) s = .next { s with responses := s.responses ++ [Response.word (s.table.entryAt i)] })
  ∧ (∀ (i : Byte) (s : State), s.tvalid = false → exec (.tread i) s = .refused .noTable)
  ∧ (∀ i, encode (.tread i) = cmdWord 0x07#8 0#32 (zext32 i))
  ∧ (∀ (i : Byte) (s : State), s.Inv → s.tvalid = true →
      exec (.tread i) s = .next { s with responses := s.responses ++ [Response.word (entry s.poly i)] })

/-- R74: after a build, `TREAD i` responds `entry(p, i)` for every index. -/
def Obligations.TableReadsBackItsDefinition : Prop :=
  ∀ (p a : Word) (i : Byte) (s : State),
    (∃ t, runScript [.tbuild p, .tread i] s = .next t
      ∧ t.responses = s.responses ++ [Response.ack, Response.word (entry p i)])
    ∧ (∃ t, runScript [.new p a, .tread i] s = .next t
      ∧ t.responses = s.responses ++ [Response.ack, Response.word (entry p i)])

/-- R114: a command completes exactly when its precondition holds, and is refused under the name of the missing bit
otherwise. -/
def Obligations.CompletesExactlyWhenReady : Prop :=
  (∀ i s, (∃ t, exec i s = .next t) ↔ ready i s = true)
  ∧ (∀ b (s : State), s.tvalid = false → exec (.tread b) s = .refused .noTable)
  ∧ (∀ i (s : State), (i = .reset ∨ (∃ b, i = .update b) ∨ i = .finalize ∨ i = .finalize32) → s.evalid = false →
      exec i s = .refused .noEngine)
  ∧ (∀ p a s, ready (.tbuild p) s = true ∧ ready (.new p a) s = true)

/-- R62: the response of each command, as a function of the state before it and the command alone. -/
def Obligations.ResponseOfEachCommand : Prop :=
  ∀ i s t, exec i s = .next t → t.responses = s.responses ++
    [match i with
      | .tbuild _ => Response.ack
      | .new _ _ => Response.ack
      | .reset => Response.ack
      | .update _ => Response.ack
      | .finalize => Response.bytes4 (serBe (~~~s.acc))
      | .finalize32 => Response.word (~~~s.acc)
      | .tread b => Response.word (s.table.entryAt b)]

/-- R130: `TBUILD` under a live engine ends it: the next engine command is refused. -/
def Obligations.TbuildEndsLiveEngine : Prop :=
  ∀ (p : Word) (b : Byte) (s : State),
    runScript [.tbuild p, .update b] s = .refused .noEngine ∧ runScript [.tbuild p, .finalize] s = .refused .noEngine
    ∧ runScript [.tbuild p, .finalize32] s = .refused .noEngine ∧ runScript [.tbuild p, .reset] s = .refused .noEngine

/-! ## Frames -/

/-- The frame of `RESET` and `UPDATE` (R78, R85): they write `ACC` and give one response. -/
def Obligations.AccumulatorCommandsFrame : Prop :=
  ∀ (i : Instr) (s t : State), (i = .reset ∨ ∃ b, i = .update b) → exec i s = .next t →
    t.poly = s.poly ∧ t.tvalid = s.tvalid ∧ (∀ a, t.table.read a = s.table.read a) ∧ t.table = s.table
    ∧ t.seed = s.seed ∧ t.evalid = s.evalid ∧ t.input = s.input ∧ t.resets = s.resets ∧ t.source = s.source
    ∧ ∃ r, t.responses = s.responses ++ [r]

/-- The frame of `FINALIZE`, `FINALIZE32` and `TREAD` (R44, R70, R97): they change nothing of the block. -/
def Obligations.ReadingCommandsFrame : Prop :=
  ∀ (i : Instr) (s t : State), (i = .finalize ∨ i = .finalize32 ∨ ∃ b, i = .tread b) → exec i s = .next t →
    t.poly = s.poly ∧ t.tvalid = s.tvalid ∧ (∀ a, t.table.read a = s.table.read a) ∧ t.table = s.table
    ∧ t.seed = s.seed ∧ t.acc = s.acc ∧ t.evalid = s.evalid ∧ t.input = s.input ∧ t.resets = s.resets ∧ t.source = s.source
    ∧ ∃ r, t.responses = s.responses ++ [r]

/-- The frame of the builds (R69, R76): every entry of the table space is rewritten, nothing is stored outside its 256
locations; `TBUILD` keeps `SEED` and `ACC`, and neither touches the host's side but for its one response. -/
def Obligations.BuildCommandsFrame : Prop :=
  ∀ (p a : Word) (s t : State),
    (exec (.tbuild p) s = .next t →
      t.seed = s.seed ∧ t.acc = s.acc ∧ t.input = s.input ∧ t.resets = s.resets ∧ t.source = s.source
      ∧ t.responses = s.responses ++ [Response.ack] ∧ (∀ i : Byte, t.table.entryAt i = entry p i)
      ∧ (∀ k, Config.tableEntries ≤ k → t.table.read k = Memory.unlisted))
    ∧ (exec (.new p a) s = .next t →
      t.input = s.input ∧ t.resets = s.resets ∧ t.source = s.source ∧ t.responses = s.responses ++ [Response.ack]
      ∧ (∀ i : Byte, t.table.entryAt i = entry p i)
      ∧ (∀ k, Config.tableEntries ≤ k → t.table.read k = Memory.unlisted))

/-- R17, R19, R22, R23, R25: which events of the host write `POLY`, `TABLE`, `SEED` and `ACC` at all. -/
def Obligations.OnlyNamedCommandsWriteEachRegister : Prop :=
  ∀ (s t : State) w rest i, step s = .next t → s.input = .command w :: rest → decode w = .command i →
    (t.poly ≠ s.poly ∨ t.table ≠ s.table → (∃ p, i = .tbuild p) ∨ ∃ p a, i = .new p a)
    ∧ (t.seed ≠ s.seed → ∃ p a, i = .new p a)
    ∧ (t.acc ≠ s.acc → (∃ p a, i = .new p a) ∨ i = .reset ∨ ∃ b, i = .update b)

/-- R20, R21: nothing clears `TVALID` but hardware reset, nothing sets it but a build; nothing clears `EVALID` but hardware
reset and `TBUILD`, nothing sets it but `NEW`. -/
def Obligations.ValidBitsChangeOnlyAsNamed : Prop :=
  ∀ s t : State, step s = .next t →
    (s.tvalid = true → t.tvalid = false → ∃ rest, s.input = .hardwareReset :: rest)
    ∧ (s.tvalid = false → t.tvalid = true → ∃ w rest, s.input = .command w :: rest
        ∧ ((∃ p, decode w = .command (.tbuild p)) ∨ ∃ p a, decode w = .command (.new p a)))
    ∧ (s.evalid = true → t.evalid = false → (∃ rest, s.input = .hardwareReset :: rest)
        ∨ ∃ w rest p, s.input = .command w :: rest ∧ decode w = .command (.tbuild p))
    ∧ (s.evalid = false → t.evalid = true → ∃ w rest p a,
        s.input = .command w :: rest ∧ decode w = .command (.new p a))

/-- R44: `TBUILD`, `NEW` and `RESET` issued twice in a row leave the block as issuing them once does; `UPDATE` does not in
general. -/
def Obligations.RebuildingTwiceIsOnce : Prop :=
  (∀ (i : Instr) (s t : State), ((∃ p, i = .tbuild p) ∨ (∃ p a, i = .new p a) ∨ i = .reset) → exec i s = .next t →
    ∃ u, exec i t = .next u ∧ t.sameBlock u)
  ∧ (∃ (b : Byte) (s t u : State), exec (.update b) s = .next t ∧ exec (.update b) t = .next u ∧ ¬ t.sameBlock u)

/-! ## Invariants of the machine -/

/-- R27, R28 (a), R22: every step from a state that meets the invariant, reachable or not, leads to one that does: the
store is canonical, an engine has a table, a valid table is the table of `POLY`. -/
def Obligations.StepKeepsInvariant : Prop :=
  ∀ s t : State, s.Inv → step s = .next t → t.Inv

/-- R27: in every state reachable from reset under any host events, a valid table is `build_table(POLY)`, entry by
entry. -/
def Obligations.ReachableTableIsBuiltFromPoly : Prop :=
  ∀ (evs : List HostEvent) (n : Nat) (t : State),
    Host.Core.run Sys2Proof.core n { State.reset with input := evs } = .next t → t.tvalid = true →
      t.table = buildTable t.poly ∧ ∀ i : Byte, t.table.entryAt i = entry t.poly i

/-- R28: along every script from a state without an engine (every hardware-reset state is one), an engine has a table and
`ACC` is the fold of the bytes of all `UPDATE`s since the last `NEW` or `RESET`, over the current table, from `SEED`. -/
def Obligations.AccumulatorIsFoldSinceStart : Prop :=
  ∀ (cs : List Instr) (s t : State), s.evalid = false → runScript cs s = .next t → t.evalid = true →
    t.tvalid = true ∧ t.acc = fold t.table t.seed (bytesSinceStart [] cs)

/-- R28: every step, from any state reachable or not, keeps the fold property: if `ACC` is the fold of `bs` while there is
an engine, then after an idle step it is that of `bs`, after a hardware reset that of no byte (there is no engine), and
after a command that of the bytes the command makes of `bs`. -/
def Obligations.StepKeepsAccumulatorFold : Prop :=
  ∀ (bs : List Byte) (s t : State), s.FoldInv bs → step s = .next t →
    (s.input = [] → t.FoldInv bs)
    ∧ (∀ rest, s.input = .hardwareReset :: rest → t.FoldInv [])
    ∧ (∀ w rest i, s.input = .command w :: rest → decode w = .command i → t.FoldInv (bytesSinceStart bs [i]))

/-- R79: from a state with an engine every script without `TBUILD` completes, in any order and any number of times, each
command with one response, and leaves an engine. -/
def Obligations.LiveEngineAcceptsEveryScript : Prop :=
  ∀ (cs : List Instr) (s : State), s.Inv → s.evalid = true → (∀ c ∈ cs, isTbuild c = false) →
    ∃ t, runScript cs s = .next t ∧ t.evalid = true ∧ t.tvalid = true
      ∧ t.responses.length = s.responses.length + cs.length

/-- R34: what is unspecified after hardware reset is never observed: two states that differ only in `POLY` and `TABLE`
while `TVALID = 0` and in `SEED` and `ACC` while `EVALID = 0` answer any number of steps alike. -/
def Obligations.UnspecifiedValuesAreNotObservable : Prop :=
  ∀ (n : Nat) (s t : State), s.Inv → t.Inv → s.sameVisible t →
    outcomesAgree (Host.Core.run Sys2Proof.core n s) (Host.Core.run Sys2Proof.core n t)

/-- R35, R128: a script that starts with `NEW` gives the same responses and leaves the same block from any two states:
nothing of what came before shows. -/
def Obligations.NewForgetsThePast : Prop :=
  ∀ (p a : Word) (cs : List Instr) (s t : State), s.input = t.input → s.responses = t.responses →
    outcomesAgree (runScript (.new p a :: cs) s) (runScript (.new p a :: cs) t)

/-- R122: a copy's step is its own, whether it goes on or is refused; every other copy stays as it was; and steps of two
different copies commute. The vector of copies is the model's form of a system (assumption 11). -/
def Obligations.InstancesShareNothing : Prop :=
  (∀ (sys : System) (k : Fin Config.numInstances) (s : State), sys[k] = .running s →
    (∀ t, step s = .next t → (sys.step k)[k] = .running t)
    ∧ (∀ r, step s = .refused r → (sys.step k)[k] = .refused r))
  ∧ (∀ (sys : System) (j k : Fin Config.numInstances), j ≠ k → (sys.step k)[j] = sys[j])
  ∧ (∀ (sys : System) (j k : Fin Config.numInstances), j ≠ k → (sys.step j).step k = (sys.step k).step j)

/-- R122: each copy starts from a hardware reset of its own, with both valid bits 0, and no two copies ever draw the
unspecified values of R34 from the same source. The sources are the model's own (assumptions 11 and 12). -/
def Obligations.CopiesStartResetWithOwnSources : Prop :=
  (∀ k : Fin Config.numInstances, ∃ s, System.reset[k] = .running s ∧ s.tvalid = false ∧ s.evalid = false)
  ∧ System.reset.sourcesApart
  ∧ (∀ (sys : System) (k : Fin Config.numInstances), sys.sourcesApart → (sys.step k).sourcesApart)

/-! ## The table function -/

/-- R72: entry 0 is 0 and entry 128 is the polynomial, for every polynomial; entry `2^k` is the polynomial after `7 - k`
rounds; entry 1 of the default polynomial is 0x77073096, not the polynomial shifted. -/
def Obligations.TableFixedEntries : Prop :=
  (∀ p, entry p 0#8 = 0#32) ∧ (∀ p, entry p 128#8 = p)
  ∧ (∀ p, ∀ k < 8, entry p (BitVec.ofNat 8 (2 ^ k)) = rounds p (7 - k) p)
  ∧ entry 0xEDB88320#32 1#8 = 0x77073096#32 ∧ entry 0xEDB88320#32 1#8 ≠ 0xEDB88320#32 >>> 1

/-- R73: a round and an entry are linear over XOR, and an entry is the XOR of the entries at the set bits of its index. -/
def Obligations.TableIsLinear : Prop :=
  (∀ p v w, Sys2Proof.Machine.round p (v ^^^ w) = Sys2Proof.Machine.round p v ^^^ Sys2Proof.Machine.round p w)
  ∧ (∀ p i j, entry p (i ^^^ j) = entry p i ^^^ entry p j)
  ∧ (∀ p (i : Byte), entry p i = (List.range 8).foldl
      (fun v k => if i.getLsbD k then v ^^^ entry p (BitVec.ofNat 8 (2 ^ k)) else v) 0#32)

/-! ## The fold -/

/-- R88: the index of a fold is in range, and the XOR may be taken on 8 bits or on zero-extended 32 bits alike. -/
def Obligations.FoldIndexIsInRange : Prop :=
  ∀ (a : Word) (b : Byte), tableAddress (foldIndex a b) < Config.tableEntries
    ∧ zext32 (foldIndex a b) = (a &&& 0xFF#32) ^^^ zext32 b

/-- R89: folding chunks one after another is folding their concatenation, for any split, empty chunks included. -/
def Obligations.ChunkingDoesNotMatter : Prop :=
  (∀ T a xs ys, fold T a (xs ++ ys) = fold T (fold T a xs) ys)
  ∧ (∀ T a (chunks : List (List Byte)), fold T a chunks.flatten = chunks.foldl (fold T) a)
  ∧ (∀ xs ys, updates (xs ++ ys) = updates xs ++ updates ys)

/-- R86: `UPDATES bs` on an engine folds the chunk into `ACC`, changes nothing else and gives one `Ack` a byte; with no byte
nothing is issued. -/
def Obligations.UpdatesFoldsTheChunk : Prop :=
  (∀ (bs : List Byte) (s : State), s.evalid = true →
    runScript (updates bs) s = .next { s with
      acc := fold s.table s.acc bs, responses := s.responses ++ List.replicate bs.length Response.ack })
  ∧ updates [] = [] ∧ (∀ s, runScript (updates []) s = .next s)

/-- R91: when the top bytes of the table are distinct, folding a byte and folding any bytes are bijections of the
accumulator; the default table meets the condition, the table of polynomial 0 does not. -/
def Obligations.FoldIsBijectiveInAccumulator : Prop :=
  (∀ T, distinctTopBytes T → (∀ b, Function.Bijective fun a => fold1 T a b) ∧
    ∀ bs, Function.Bijective fun a => fold T a bs)
  ∧ distinctTopBytes (buildTable 0xEDB88320#32) ∧ ¬ distinctTopBytes (buildTable 0#32)

/-- R69, R106, R110: with polynomial 0 a fold only shifts, so after four or more bytes the accumulator is 0 and the
one-shot result is all ones, whatever the seed and the bytes. -/
def Obligations.ZeroPolynomialOnlyShifts : Prop :=
  (∀ a b, fold1 (buildTable 0#32) a b = a >>> 8)
  ∧ (∀ (a : Word) (bs : List Byte), 4 ≤ bs.length → compute 0#32 a bs = 0xFFFFFFFF#32)

/-! ## Finalisation -/

/-- R98: the two forms of the digest determine each other, and either gives the accumulator back. -/
def Obligations.DigestFormsAgree : Prop :=
  (∀ w, beValue (serBe w) = w) ∧ (∀ ds, serBe (beValue ds) = ds)
  ∧ (∀ s t u : State, exec .finalize s = .next t → exec .finalize32 s = .next u →
      ∃ ds w, t.responses = s.responses ++ [Response.bytes4 ds] ∧ u.responses = s.responses ++ [Response.word w]
        ∧ ds = serBe w ∧ w = beValue ds ∧ s.acc = ~~~w)

/-- R97: finalising again gives the same answer, and a host reads the digest of every prefix: after `UPDATES bs1;
FINALIZE32; UPDATES bs2; FINALIZE32` the two words are the complements of the folds of `bs1` and of `bs1 ++ bs2`. -/
def Obligations.PrefixDigestsAreReadable : Prop :=
  (∀ s : State, s.evalid = true → ∃ t, runScript [.finalize, .finalize32, .finalize, .finalize32] s = .next t
    ∧ t.sameBlock s ∧ t.responses = s.responses ++ [Response.bytes4 (serBe (~~~s.acc)), Response.word (~~~s.acc),
        Response.bytes4 (serBe (~~~s.acc)), Response.word (~~~s.acc)])
  ∧ (∀ (xs ys : List Byte) (s : State), s.evalid = true →
      ∃ t, runScript (updates xs ++ Instr.finalize32 :: (updates ys ++ [Instr.finalize32])) s = .next t
        ∧ t.acc = fold s.table s.acc (xs ++ ys)
        ∧ t.responses = s.responses ++ (List.replicate xs.length Response.ack ++
            Response.word (~~~(fold s.table s.acc xs)) :: (List.replicate ys.length Response.ack ++
              [Response.word (~~~(fold s.table s.acc (xs ++ ys)))])))

/-- R99: right after `NEW p, a`, `FINALIZE` responds the bytes that shifting and masking `NOT a` by hand gives. -/
def Obligations.SerialisationIsShiftAndMask : Prop :=
  ∀ (p a : Word) (s : State), ∃ t ds, runScript [.new p a, .finalize] s = .next t
    ∧ t.responses = s.responses ++ [Response.ack, Response.bytes4 ds]
    ∧ zext32 ds[0] = ((~~~a) >>> 24) &&& 0xFF#32 ∧ zext32 ds[1] = ((~~~a) >>> 16) &&& 0xFF#32
    ∧ zext32 ds[2] = ((~~~a) >>> 8) &&& 0xFF#32 ∧ zext32 ds[3] = (~~~a) &&& 0xFF#32

/-! ## Reset idempotence and the one-shots -/

/-- R80: the same bytes after `RESET` give the same digest as the first time. -/
def Obligations.ResetRepeatsTheDigest : Prop :=
  ∀ (p a : Word) (bs : List Byte) (s : State), ∃ t,
    runScript (Instr.new p a :: (updates bs ++ Instr.finalize :: Instr.reset :: (updates bs ++ [Instr.finalize]))) s = .next t
    ∧ t.responses = s.responses ++ Response.ack :: (List.replicate bs.length Response.ack ++
        Response.bytes4 (serBe (~~~(fold (buildTable p) a bs))) :: Response.ack ::
          (List.replicate bs.length Response.ack ++ [Response.bytes4 (serBe (~~~(fold (buildTable p) a bs)))]))

/-- R103: the expansion of a one-shot has `n + 2` commands, completes in every state, answers `n + 1` times `Ack` and then
the value of `compute`, and leaves the named state of the block. -/
def Obligations.OneshotExpansionComputes : Prop :=
  ∀ (p a : Word) (bs : List Byte) (s : State), (oneshot p a bs).length = bs.length + 2 ∧
    ∃ t, runScript (oneshot p a bs) s = .next t
      ∧ t.responses = s.responses ++ (List.replicate (bs.length + 1) Response.ack ++ [Response.word (compute p a bs)])
      ∧ t.poly = p ∧ t.table = buildTable p ∧ t.tvalid = true ∧ t.seed = a ∧ t.acc = fold (buildTable p) a bs
      ∧ t.evalid = true

/-- R111: constructing, feeding the bytes in any chunks and finalising ends with the value of the one-shot, as a word with
`FINALIZE32` and as its four bytes with `FINALIZE`. -/
def Obligations.IncrementalEqualsOneshot : Prop :=
  ∀ (p a : Word) (chunks : List (List Byte)) (s : State),
    (∃ t, runScript (Instr.new p a :: ((chunks.map updates).flatten ++ [Instr.finalize32])) s = .next t
      ∧ t.responses.getLast? = some (Response.word (compute p a chunks.flatten)))
    ∧ (∃ t, runScript (Instr.new p a :: ((chunks.map updates).flatten ++ [Instr.finalize])) s = .next t
      ∧ t.responses.getLast? = some (Response.bytes4 (serBe (compute p a chunks.flatten))))

/-- R105, R109: a computation is continued from the complement of a result, and no bytes give the complement of the seed. -/
def Obligations.ComputeChainsThroughComplement : Prop :=
  (∀ p a xs ys, compute p (~~~(compute p a xs)) ys = compute p a (xs ++ ys)) ∧ (∀ p a, compute p a [] = ~~~a)

/-- R110: with the default polynomial two different seeds give different results on every buffer; with polynomial 0 any two
seeds give the same result on every buffer of four or more bytes. -/
def Obligations.SeedSensitivity : Prop :=
  (∀ (a a' : Word) (bs : List Byte), a ≠ a' → compute 0xEDB88320#32 a bs ≠ compute 0xEDB88320#32 a' bs)
  ∧ (∀ (a a' : Word) (bs : List Byte), 4 ≤ bs.length → compute 0#32 a bs = compute 0#32 a' bs)

/-! ## Script lines -/

/-- R87: `UPDATEBUF` assembles to exactly `length` updates, from index `start` on, and to nothing when the slice leaves the
buffer. -/
def Obligations.UpdatebufTakesStartToStartPlusLength : Prop :=
  ∀ (buf : List Nat) (start length : Nat), (∀ n ∈ buf, n < 256) →
    (start + length ≤ buf.length → ∃ cs, assemble (.updatebuf buf start length) = some cs ∧ cs.length = length
      ∧ ∀ k, k < length → cs[k]? = (buf[start + k]?).map fun n => .update (BitVec.ofNat 8 n))
    ∧ (buf.length < start + length → assemble (.updatebuf buf start length) = none)

/-- R64, R87: what every form of script line assembles to: its commands when every number fits its field (and, for
`UPDATEBUF`, the slice lies in the buffer), and nothing otherwise. -/
def Obligations.OperandRangesAreChecked : Prop :=
  (∀ p : Nat, assemble (.tbuild p) = if p < 2 ^ 32 then some [.tbuild (BitVec.ofNat 32 p)] else none)
  ∧ (∀ p a : Nat, assemble (.new p a)
      = if p < 2 ^ 32 ∧ a < 2 ^ 32 then some [.new (BitVec.ofNat 32 p) (BitVec.ofNat 32 a)] else none)
  ∧ (∀ b : Nat, assemble (.update b) = if b < 2 ^ 8 then some [.update (BitVec.ofNat 8 b)] else none)
  ∧ (∀ b : Nat, assemble (.tread b) = if b < 2 ^ 8 then some [.tread (BitVec.ofNat 8 b)] else none)
  ∧ assemble .reset = some [.reset] ∧ assemble .finalize = some [.finalize]
  ∧ assemble .finalize32 = some [.finalize32]
  ∧ (∀ bs : List Nat, assemble (.updates bs)
      = if ∀ n ∈ bs, n < 2 ^ 8 then some (bs.map fun n => .update (BitVec.ofNat 8 n)) else none)
  ∧ (∀ (buf : List Nat) (start length : Nat), assemble (.updatebuf buf start length)
      = if (∀ n ∈ buf, n < 2 ^ 8) ∧ start + length ≤ buf.length
        then some (((buf.drop start).take length).map fun n => .update (BitVec.ofNat 8 n)) else none)
  ∧ (∀ bs : List Nat, assemble (.compute1 bs)
      = if ∀ n ∈ bs, n < 2 ^ 8
        then some (oneshot 0xEDB88320#32 0xFFFFFFFF#32 (bs.map (BitVec.ofNat 8))) else none)
  ∧ (∀ (a : Nat) (bs : List Nat), assemble (.compute2 a bs)
      = if a < 2 ^ 32 ∧ ∀ n ∈ bs, n < 2 ^ 8
        then some (oneshot 0xEDB88320#32 (BitVec.ofNat 32 a) (bs.map (BitVec.ofNat 8))) else none)
  ∧ (∀ (p a : Nat) (bs : List Nat), assemble (.compute3 p a bs)
      = if p < 2 ^ 32 ∧ a < 2 ^ 32 ∧ ∀ n ∈ bs, n < 2 ^ 8
        then some (oneshot (BitVec.ofNat 32 p) (BitVec.ofNat 32 a) (bs.map (BitVec.ofNat 8))) else none)

/-- R104, R105, R106: the three one-shot lines assemble to the common expansion, with the default polynomial and seed
where they are not given. -/
def Obligations.OneshotLinesUseDefaults : Prop :=
  ∀ (p a : Nat) (bs : List Nat), p < 2 ^ 32 → a < 2 ^ 32 → (∀ n ∈ bs, n < 256) →
    assemble (.compute1 bs) = some (oneshot 0xEDB88320#32 0xFFFFFFFF#32 (bs.map (BitVec.ofNat 8)))
    ∧ assemble (.compute2 a bs) = some (oneshot 0xEDB88320#32 (BitVec.ofNat 32 a) (bs.map (BitVec.ofNat 8)))
    ∧ assemble (.compute3 p a bs)
        = some (oneshot (BitVec.ofNat 32 p) (BitVec.ofNat 32 a) (bs.map (BitVec.ofNat 8)))
end

