-- ==== Sys2Proof/Laws/Memory.lean ====
section
/-!
SUPPORT. The table store: what a read finds after the whole-store write, that the write keeps the canonical form, and
that canonical stores with equal entries are equal.
-/

namespace Sys2Proof.Machine

theorem Memory.read_cellsFrom (f : Byte → Word) (n : Nat) : ∀ a j : Nat,
    Memory.read (Memory.cellsFrom f a n) j
      = if a ≤ j ∧ j < a + n then f (BitVec.ofNat 8 j) else Memory.unlisted := by
  induction n with
  | zero => intro a j; simp [Memory.cellsFrom, Memory.read]
  | succ n ih =>
    intro a j
    by_cases hz : f (BitVec.ofNat 8 a) = Memory.unlisted
    · by_cases haj : a = j
      · subst haj; simp [Memory.cellsFrom, hz, ih]
      · simp only [Memory.cellsFrom, hz, if_true, ih]
        have : (a + 1 ≤ j ∧ j < a + 1 + n) ↔ (a ≤ j ∧ j < a + (n + 1)) := by omega
        simp only [this]
    · by_cases haj : a = j
      · subst haj; simp [Memory.cellsFrom, hz, Memory.read]
      · simp only [Memory.cellsFrom, hz, if_false, Memory.read, haj, ih]
        have : (a + 1 ≤ j ∧ j < a + 1 + n) ↔ (a ≤ j ∧ j < a + (n + 1)) := by omega
        simp only [this]

/-- A read after the whole-store write gives the entry written (20_memory.md R43). -/
@[simp] theorem Memory.entryAt_writeAll (f : Byte → Word) (i : Byte) : (Memory.writeAll f).entryAt i = f i := by
  have hi : i.toNat < Config.tableEntries := i.isLt
  simp [Memory.entryAt, tableAddress, Memory.writeAll, Memory.read_cellsFrom, hi]

/-- Entry `i` of the built table is `entry(p, i)` (40_table_builder.md R68). -/
@[simp] theorem entryAt_buildTable (p : Word) (i : Byte) : (buildTable p).entryAt i = entry p i :=
  Memory.entryAt_writeAll _ _

theorem Memory.cellsFrom_bounds (f : Byte → Word) (n : Nat) : ∀ a : Nat,
    ∀ c ∈ Memory.cellsFrom f a n, a ≤ c.1 ∧ c.1 < a + n ∧ c.2 ≠ Memory.unlisted := by
  induction n with
  | zero => intro a c hc; simp [Memory.cellsFrom] at hc
  | succ n ih =>
    intro a c hc
    by_cases hz : f (BitVec.ofNat 8 a) = Memory.unlisted
    · simp only [Memory.cellsFrom, hz, if_true] at hc
      have h := ih (a + 1) c hc
      exact ⟨by omega, by omega, h.2.2⟩
    · simp only [Memory.cellsFrom, hz, if_false, List.mem_cons] at hc
      rcases hc with rfl | hc
      · exact ⟨le_refl _, by simp, hz⟩
      · have h := ih (a + 1) c hc
        exact ⟨by omega, by omega, h.2.2⟩

theorem Memory.cellsFrom_rising (f : Byte → Word) (n : Nat) : ∀ a : Nat,
    (Memory.cellsFrom f a n).Pairwise (fun c d => c.1 < d.1) := by
  induction n with
  | zero => intro a; exact List.Pairwise.nil
  | succ n ih =>
    intro a
    by_cases hz : f (BitVec.ofNat 8 a) = Memory.unlisted
    · simpa only [Memory.cellsFrom, hz, if_true] using ih (a + 1)
    · simp only [Memory.cellsFrom, hz, if_false, List.pairwise_cons]
      exact ⟨fun c hc => (Memory.cellsFrom_bounds f n (a + 1) c hc).1, ih (a + 1)⟩

/-- Every write of the store leaves it in canonical form, whatever the 256 values are. -/
theorem Memory.writeAll_wf (f : Byte → Word) : (Memory.writeAll f).wf :=
  ⟨Memory.cellsFrom_rising f _ 0, fun c hc =>
    have h := Memory.cellsFrom_bounds f _ 0 c hc
    ⟨by simpa using h.2.1, h.2.2⟩⟩

theorem buildTable_wf (p : Word) : (buildTable p).wf := Memory.writeAll_wf _

theorem State.reset_table_wf : State.reset.table.wf := by decide

/-- A read below every listed index finds nothing listed. -/
theorem Memory.read_below (m : Memory) (a : Nat) (h : ∀ c ∈ m, a < c.1) : m.read a = Memory.unlisted := by
  induction m with
  | nil => rfl
  | cons c m ih =>
    have hc : c.1 ≠ a := Nat.ne_of_gt (h c (List.mem_cons_self ..))
    simp only [Memory.read, hc, if_false]
    exact ih fun d hd => h d (List.mem_cons_of_mem _ hd)

/-- A read outside the table space finds nothing listed in a canonical store. -/
theorem Memory.read_outside (m : Memory) (hw : m.wf) (a : Nat) (ha : Config.tableEntries ≤ a) :
    m.read a = Memory.unlisted := by
  obtain ⟨-, hb⟩ := hw
  induction m with
  | nil => rfl
  | cons c m ih =>
    have hc : c.1 ≠ a := by have := (hb c (List.mem_cons_self ..)).1; omega
    simp only [Memory.read, hc, if_false]
    exact ih fun d hd => hb d (List.mem_cons_of_mem _ hd)

theorem Memory.eq_of_read (m : Memory) : ∀ m' : Memory, m.wf → m'.wf → (∀ a, m.read a = m'.read a) → m = m' := by
  induction m with
  | nil =>
    intro m' _ hw' h
    cases m' with
    | nil => rfl
    | cons d m' =>
      have := h d.1
      simp only [Memory.read, if_true] at this
      exact absurd this.symm (hw'.2 d (List.mem_cons_self ..)).2
  | cons c m ih =>
    intro m' hw hw' h
    obtain ⟨hr, hb⟩ := hw
    rw [List.pairwise_cons] at hr
    have hcv := (hb c (List.mem_cons_self ..)).2
    have hm : Memory.wf m := ⟨hr.2, fun d hd => hb d (List.mem_cons_of_mem _ hd)⟩
    cases m' with
    | nil =>
      have := h c.1
      simp only [Memory.read, if_true] at this
      exact absurd this hcv
    | cons d m' =>
      obtain ⟨hr', hb'⟩ := hw'
      rw [List.pairwise_cons] at hr'
      have hdv := (hb' d (List.mem_cons_self ..)).2
      have hm' : Memory.wf m' := ⟨hr'.2, fun e he => hb' e (List.mem_cons_of_mem _ he)⟩
      have hcd : c.1 = d.1 := by
        rcases Nat.lt_trichotomy c.1 d.1 with hlt | heq | hgt
        · have h1 := h c.1
          have h2 := Memory.read_below (d :: m') c.1 (by
            intro e he
            rcases List.mem_cons.mp he with rfl | he
            · exact hlt
            · exact Nat.lt_trans hlt (hr'.1 e he))
          rw [h2] at h1
          simp only [Memory.read, if_true] at h1
          exact absurd h1 hcv
        · exact heq
        · have h1 := h d.1
          have h2 := Memory.read_below (c :: m) d.1 (by
            intro e he
            rcases List.mem_cons.mp he with rfl | he
            · exact hgt
            · exact Nat.lt_trans hgt (hr.1 e he))
          rw [h2] at h1
          simp only [Memory.read, if_true] at h1
          exact absurd h1.symm hdv
      have hv : c.2 = d.2 := by
        have h1 := h c.1
        simpa only [Memory.read, if_true, hcd] using h1
      have htail : ∀ a, Memory.read m a = Memory.read m' a := by
        intro a
        by_cases ha : c.1 = a
        · have h1 := Memory.read_below m a (fun e he => ha ▸ hr.1 e he)
          have h2 := Memory.read_below m' a (fun e he => ha ▸ hcd ▸ hr'.1 e he)
          rw [h1, h2]
        · have h1 := h a
          simpa only [Memory.read, ha, hcd ▸ ha, if_false] using h1
      rw [ih m' hm hm' htail]
      exact congrArg (· :: m') (Prod.ext hcd hv)

/-- Canonical stores that hold the same 256 entries are the same data. -/
theorem Memory.ext_entryAt (m m' : Memory) (hw : m.wf) (hw' : m'.wf) (h : ∀ i, m.entryAt i = m'.entryAt i) : m = m' := by
  refine Memory.eq_of_read m m' hw hw' fun a => ?_
  by_cases ha : a < Config.tableEntries
  · have hi := h (BitVec.ofNat 8 a)
    have hm : a % 256 = a := Nat.mod_eq_of_lt ha
    simpa [Memory.entryAt, tableAddress, hm] using hi
  · rw [Memory.read_outside m hw a (by omega), Memory.read_outside m' hw' a (by omega)]

end Sys2Proof.Machine
end

