-- ==== Sys2Proof/Laws/State.lean ====
section
/-!
SUPPORT. One lemma per field per update of the state, so that no later proof unfolds a record update.
-/

namespace Sys2Proof.Machine

@[simp] theorem State.loadTable_poly (s : State) (p : Word) : (s.loadTable p).poly = p := rfl
@[simp] theorem State.loadTable_tvalid (s : State) (p : Word) : (s.loadTable p).tvalid = true := rfl
@[simp] theorem State.loadTable_table (s : State) (p : Word) : (s.loadTable p).table = buildTable p := rfl
@[simp] theorem State.loadTable_seed (s : State) (p : Word) : (s.loadTable p).seed = s.seed := rfl
@[simp] theorem State.loadTable_acc (s : State) (p : Word) : (s.loadTable p).acc = s.acc := rfl
@[simp] theorem State.loadTable_evalid (s : State) (p : Word) : (s.loadTable p).evalid = s.evalid := rfl
@[simp] theorem State.loadTable_input (s : State) (p : Word) : (s.loadTable p).input = s.input := rfl
@[simp] theorem State.loadTable_responses (s : State) (p : Word) : (s.loadTable p).responses = s.responses := rfl
@[simp] theorem State.loadTable_resets (s : State) (p : Word) : (s.loadTable p).resets = s.resets := rfl
@[simp] theorem State.loadTable_source (s : State) (p : Word) : (s.loadTable p).source = s.source := rfl

@[simp] theorem State.startEngine_poly (s : State) (a : Word) : (s.startEngine a).poly = s.poly := rfl
@[simp] theorem State.startEngine_tvalid (s : State) (a : Word) : (s.startEngine a).tvalid = s.tvalid := rfl
@[simp] theorem State.startEngine_table (s : State) (a : Word) : (s.startEngine a).table = s.table := rfl
@[simp] theorem State.startEngine_seed (s : State) (a : Word) : (s.startEngine a).seed = a := rfl
@[simp] theorem State.startEngine_acc (s : State) (a : Word) : (s.startEngine a).acc = a := rfl
@[simp] theorem State.startEngine_evalid (s : State) (a : Word) : (s.startEngine a).evalid = true := rfl
@[simp] theorem State.startEngine_input (s : State) (a : Word) : (s.startEngine a).input = s.input := rfl
@[simp] theorem State.startEngine_responses (s : State) (a : Word) : (s.startEngine a).responses = s.responses := rfl
@[simp] theorem State.startEngine_resets (s : State) (a : Word) : (s.startEngine a).resets = s.resets := rfl
@[simp] theorem State.startEngine_source (s : State) (a : Word) : (s.startEngine a).source = s.source := rfl

@[simp] theorem State.endEngine_poly (s : State) : s.endEngine.poly = s.poly := rfl
@[simp] theorem State.endEngine_tvalid (s : State) : s.endEngine.tvalid = s.tvalid := rfl
@[simp] theorem State.endEngine_table (s : State) : s.endEngine.table = s.table := rfl
@[simp] theorem State.endEngine_seed (s : State) : s.endEngine.seed = s.seed := rfl
@[simp] theorem State.endEngine_acc (s : State) : s.endEngine.acc = s.acc := rfl
@[simp] theorem State.endEngine_evalid (s : State) : s.endEngine.evalid = false := rfl
@[simp] theorem State.endEngine_input (s : State) : s.endEngine.input = s.input := rfl
@[simp] theorem State.endEngine_responses (s : State) : s.endEngine.responses = s.responses := rfl
@[simp] theorem State.endEngine_resets (s : State) : s.endEngine.resets = s.resets := rfl
@[simp] theorem State.endEngine_source (s : State) : s.endEngine.source = s.source := rfl

@[simp] theorem State.setAcc_poly (s : State) (a : Word) : (s.setAcc a).poly = s.poly := rfl
@[simp] theorem State.setAcc_tvalid (s : State) (a : Word) : (s.setAcc a).tvalid = s.tvalid := rfl
@[simp] theorem State.setAcc_table (s : State) (a : Word) : (s.setAcc a).table = s.table := rfl
@[simp] theorem State.setAcc_seed (s : State) (a : Word) : (s.setAcc a).seed = s.seed := rfl
@[simp] theorem State.setAcc_acc (s : State) (a : Word) : (s.setAcc a).acc = a := rfl
@[simp] theorem State.setAcc_evalid (s : State) (a : Word) : (s.setAcc a).evalid = s.evalid := rfl
@[simp] theorem State.setAcc_input (s : State) (a : Word) : (s.setAcc a).input = s.input := rfl
@[simp] theorem State.setAcc_responses (s : State) (a : Word) : (s.setAcc a).responses = s.responses := rfl
@[simp] theorem State.setAcc_resets (s : State) (a : Word) : (s.setAcc a).resets = s.resets := rfl
@[simp] theorem State.setAcc_source (s : State) (a : Word) : (s.setAcc a).source = s.source := rfl

@[simp] theorem State.respond_poly (s : State) (r : Response) : (s.respond r).poly = s.poly := rfl
@[simp] theorem State.respond_tvalid (s : State) (r : Response) : (s.respond r).tvalid = s.tvalid := rfl
@[simp] theorem State.respond_table (s : State) (r : Response) : (s.respond r).table = s.table := rfl
@[simp] theorem State.respond_seed (s : State) (r : Response) : (s.respond r).seed = s.seed := rfl
@[simp] theorem State.respond_acc (s : State) (r : Response) : (s.respond r).acc = s.acc := rfl
@[simp] theorem State.respond_evalid (s : State) (r : Response) : (s.respond r).evalid = s.evalid := rfl
@[simp] theorem State.respond_input (s : State) (r : Response) : (s.respond r).input = s.input := rfl
@[simp] theorem State.respond_responses (s : State) (r : Response) : (s.respond r).responses = s.responses ++ [r] := rfl
@[simp] theorem State.respond_resets (s : State) (r : Response) : (s.respond r).resets = s.resets := rfl
@[simp] theorem State.respond_source (s : State) (r : Response) : (s.respond r).source = s.source := rfl

@[simp] theorem State.hardwareReset_poly (s : State) : s.hardwareReset.poly = Config.resetPoly s.source s.resets := rfl
@[simp] theorem State.hardwareReset_tvalid (s : State) : s.hardwareReset.tvalid = false := rfl
@[simp] theorem State.hardwareReset_table (s : State) : s.hardwareReset.table = Memory.writeAll (Config.resetEntry s.source s.resets) := rfl
@[simp] theorem State.hardwareReset_seed (s : State) : s.hardwareReset.seed = Config.resetSeed s.source s.resets := rfl
@[simp] theorem State.hardwareReset_acc (s : State) : s.hardwareReset.acc = Config.resetAcc s.source s.resets := rfl
@[simp] theorem State.hardwareReset_evalid (s : State) : s.hardwareReset.evalid = false := rfl
@[simp] theorem State.hardwareReset_input (s : State) : s.hardwareReset.input = s.input := rfl
@[simp] theorem State.hardwareReset_responses (s : State) : s.hardwareReset.responses = s.responses := rfl
@[simp] theorem State.hardwareReset_resets (s : State) : s.hardwareReset.resets = s.resets + 1 := rfl
@[simp] theorem State.hardwareReset_source (s : State) : s.hardwareReset.source = s.source := rfl

@[simp] theorem State.withFetchWord_poly (s : State) (nbits w : Nat) : (s.withFetchWord nbits w).poly = s.poly := rfl
@[simp] theorem State.withFetchWord_tvalid (s : State) (nbits w : Nat) : (s.withFetchWord nbits w).tvalid = s.tvalid := rfl
@[simp] theorem State.withFetchWord_table (s : State) (nbits w : Nat) : (s.withFetchWord nbits w).table = s.table := rfl
@[simp] theorem State.withFetchWord_seed (s : State) (nbits w : Nat) : (s.withFetchWord nbits w).seed = s.seed := rfl
@[simp] theorem State.withFetchWord_acc (s : State) (nbits w : Nat) : (s.withFetchWord nbits w).acc = s.acc := rfl
@[simp] theorem State.withFetchWord_evalid (s : State) (nbits w : Nat) : (s.withFetchWord nbits w).evalid = s.evalid := rfl
@[simp] theorem State.withFetchWord_input (s : State) (nbits w : Nat) : (s.withFetchWord nbits w).input = .command (tableWord nbits w) :: s.input := rfl
@[simp] theorem State.withFetchWord_responses (s : State) (nbits w : Nat) : (s.withFetchWord nbits w).responses = s.responses := rfl
@[simp] theorem State.withFetchWord_resets (s : State) (nbits w : Nat) : (s.withFetchWord nbits w).resets = s.resets := rfl
@[simp] theorem State.withFetchWord_source (s : State) (nbits w : Nat) : (s.withFetchWord nbits w).source = s.source := rfl

end Sys2Proof.Machine
end

