-- ==== Sys2Proof/Laws/Exec.lean ====
section
/-!
SUPPORT. What each shared operation and each command can do, said once: when it goes on and in what state.
-/

namespace Sys2Proof.Machine

/-- A command that needs an engine goes on exactly when there is one. -/
theorem State.withEngine_next_iff (s t u : State) :
    s.withEngine t = .next u ↔ s.evalid = true ∧ u = t := by
  unfold State.withEngine
  cases s.evalid <;> simp [eq_comm]

/-- A command that needs a table goes on exactly when there is one. -/
theorem State.withTable_next_iff (s t u : State) :
    s.withTable t = .next u ↔ s.tvalid = true ∧ u = t := by
  unfold State.withTable
  cases s.tvalid <;> simp [eq_comm]

/-- Everything a command can do when it goes on, guards included. -/
theorem exec_next_cases (i : Instr) (s t : State) (h : exec i s = .next t) :
    (∃ p, i = .tbuild p ∧ t = ((s.loadTable p).endEngine).respond .ack) ∨
    (∃ p a, i = .new p a ∧ t = ((s.loadTable p).startEngine a).respond .ack) ∨
    (i = .reset ∧ s.evalid = true ∧ t = (s.setAcc s.seed).respond .ack) ∨
    (∃ b, i = .update b ∧ s.evalid = true ∧ t = (s.setAcc (fold1 s.table s.acc b)).respond .ack) ∨
    (i = .finalize ∧ s.evalid = true ∧ t = s.respond (.bytes4 (serBe (digest32 s.acc)))) ∨
    (i = .finalize32 ∧ s.evalid = true ∧ t = s.respond (.word (digest32 s.acc))) ∨
    (∃ b, i = .tread b ∧ s.tvalid = true ∧ t = s.respond (.word (s.table.entryAt b))) := by
  cases i with
  | tbuild p => exact .inl ⟨p, rfl, by simpa [exec, execTbuild] using h.symm⟩
  | new p a => exact .inr (.inl ⟨p, a, rfl, by simpa [exec, execNew] using h.symm⟩)
  | reset =>
    obtain ⟨he, ht⟩ := (s.withEngine_next_iff _ _).mp h
    exact .inr (.inr (.inl ⟨rfl, he, ht⟩))
  | update b =>
    obtain ⟨he, ht⟩ := (s.withEngine_next_iff _ _).mp h
    exact .inr (.inr (.inr (.inl ⟨b, rfl, he, ht⟩)))
  | finalize =>
    obtain ⟨he, ht⟩ := (s.withEngine_next_iff _ _).mp h
    exact .inr (.inr (.inr (.inr (.inl ⟨rfl, he, ht⟩))))
  | finalize32 =>
    obtain ⟨he, ht⟩ := (s.withEngine_next_iff _ _).mp h
    exact .inr (.inr (.inr (.inr (.inr (.inl ⟨rfl, he, ht⟩)))))
  | tread b =>
    obtain ⟨he, ht⟩ := (s.withTable_next_iff _ _).mp h
    exact .inr (.inr (.inr (.inr (.inr (.inr ⟨b, rfl, he, ht⟩)))))

/-- Taking the next host event: none left, or the first one off the input. -/
theorem State.fetch_eq (s : State) :
    (s.input = [] ∧ s.fetch = none) ∨
    ∃ e rest, s.input = e :: rest ∧ s.fetch = some (e, { s with input := rest }) := by
  unfold State.fetch
  split
  · next h => exact .inl ⟨h, rfl⟩
  · next e rest h => exact .inr ⟨e, rest, h, rfl⟩

/-- Everything a step can do when it goes on: idle, a hardware reset, or a decoded command that goes on. -/
theorem step_next_cases (s t : State) (h : step s = .next t) :
    (s.input = [] ∧ t = s) ∨
    (∃ rest, s.input = .hardwareReset :: rest ∧ t = State.hardwareReset { s with input := rest }) ∨
    (∃ w rest i, s.input = .command w :: rest ∧ decode w = .command i ∧ exec i { s with input := rest } = .next t) := by
  unfold step at h
  obtain ⟨hi, hf⟩ | ⟨e, rest, hi, hf⟩ := s.fetch_eq
  · rw [hf] at h
    exact .inl ⟨hi, by simpa using h.symm⟩
  · rw [hf] at h
    cases e with
    | hardwareReset => exact .inr (.inl ⟨rest, hi, by simpa using h.symm⟩)
    | command w =>
      cases hd : decode w with
      | reserved why => simp [hd] at h
      | command i => exact .inr (.inr ⟨w, rest, i, hi, hd, by simpa [hd] using h⟩)

end Sys2Proof.Machine
end

