-- ==== Sys2Proof/Laws/Instances.lean ====
section
/-!
SUPPORT. What a copy of the block and a system of copies can do, said once.
-/

namespace Sys2Proof.Machine

@[simp] theorem Copy.step_refused (r : Refusal) : (Copy.refused r).step = .refused r := rfl

theorem Copy.step_of_next (s t : State) (h : Sys2Proof.Machine.step s = .next t) :
    (Copy.running s).step = .running t := by
  simp only [Copy.step, h, Copy.after]

theorem Copy.step_of_refused (s : State) (r : Refusal) (h : Sys2Proof.Machine.step s = .refused r) :
    (Copy.running s).step = .refused r := by
  simp only [Copy.step, h, Copy.after]

/-- A copy that runs after its step ran before it, and its step went on. -/
theorem Copy.step_running_cases (c : Copy) (t : State) (h : c.step = .running t) :
    ∃ s, c = .running s ∧ Sys2Proof.Machine.step s = .next t := by
  cases c with
  | refused r => cases h
  | running s =>
    cases hs : Sys2Proof.Machine.step s with
    | next u => rw [Copy.step_of_next s u hs] at h; exact ⟨s, rfl, by cases h; exact hs⟩
    | fault r => exact nomatch r
    | refused r => rw [Copy.step_of_refused s r hs] at h; cases h

/-- No step changes where a copy's free values come from. -/
theorem step_source (s t : State) (h : Sys2Proof.Machine.step s = .next t) : t.source = s.source := by
  obtain ⟨-, rfl⟩ | ⟨_, -, rfl⟩ | ⟨w, rest, i, -, -, he⟩ := step_next_cases s t h
  · rfl
  · rfl
  · obtain ⟨_, -, rfl⟩ | ⟨_, _, -, rfl⟩ | ⟨-, -, rfl⟩ | ⟨_, -, -, rfl⟩ | ⟨-, -, rfl⟩ | ⟨-, -, rfl⟩ | ⟨_, -, -, rfl⟩ :=
      exec_next_cases _ _ _ he <;> rfl

@[simp] theorem System.reset_get (k : Fin Config.numInstances) : System.reset[k] = Copy.powerUp k := by
  simp [System.reset]

/-- The copy that steps becomes what its own step makes it. -/
@[simp] theorem System.step_get (sys : System) (k : Fin Config.numInstances) : (sys.step k)[k] = sys[k].step := by
  simp [System.step]

end Sys2Proof.Machine
end

