-- ==== Sys2Proof/Laws/Word.lean ====
section
/-!
SUPPORT. The three fields of a command word: a word is made of its fields, and the fields of a made word are the parts it
was made of (30_encoding.md R50).
-/

namespace Sys2Proof

/-- The bits of `op ‖ a ‖ b`: `b` below 32, `a` below 64, `op` above. -/
theorem getLsbD_cmdWord (op : BitVec 8) (a b : Word) (k : Nat) :
    (cmdWord op a b).getLsbD k
      = if k < 32 then b.getLsbD k else if k < 64 then a.getLsbD (k - 32) else op.getLsbD (k - 64) := by
  unfold cmdWord
  rw [BitVec.getLsbD_append, BitVec.getLsbD_append]
  by_cases h1 : k < 32
  · simp [h1]
  · by_cases h2 : k < 64
    · have : k - 32 < 32 := by omega
      simp [h1, h2, this]
    · have h3 : ¬ (k - 32 < 32) := by omega
      have h4 : k - 32 - 32 = k - 64 := by omega
      simp [h1, h2, h3, h4]

@[simp] theorem opField_cmdWord (op : BitVec 8) (a b : Word) : opField (cmdWord op a b) = op := by
  apply BitVec.eq_of_getLsbD_eq
  intro i hi
  have : ¬ (64 + i < 32) := by omega
  simp [opField, getLsbD_cmdWord, hi, this]

@[simp] theorem aField_cmdWord (op : BitVec 8) (a b : Word) : aField (cmdWord op a b) = a := by
  apply BitVec.eq_of_getLsbD_eq
  intro i hi
  have : 32 + i < 64 := by omega
  simp [aField, getLsbD_cmdWord, hi, this]

@[simp] theorem bField_cmdWord (op : BitVec 8) (a b : Word) : bField (cmdWord op a b) = b := by
  apply BitVec.eq_of_getLsbD_eq
  intro i hi
  simp [bField, getLsbD_cmdWord, hi]

/-- A command word is `op ‖ a ‖ b` of its own fields. -/
theorem cmdWord_fields (w : CmdWord) : cmdWord (opField w) (aField w) (bField w) = w := by
  apply BitVec.eq_of_getLsbD_eq
  intro i hi
  rw [getLsbD_cmdWord]
  split
  · next h => simp [bField, h]
  · split
    · next h1 h2 =>
      have h3 : i - 32 < 32 := by omega
      have h4 : 32 + (i - 32) = i := by omega
      simp [aField, h3, h4]
    · next h1 h2 =>
      have h3 : i - 64 < 8 := by omega
      have h4 : 64 + (i - 64) = i := by omega
      simp [opField, h3, h4]

@[simp] theorem imm8Of_zext32 (i : Byte) : imm8Of (zext32 i) = i := by
  revert i; decide

@[simp] theorem bHigh_zext32 (i : Byte) : bHigh (zext32 i) = 0#24 := by
  revert i; decide

/-- A 32-bit field whose bits 31..8 are zero is the zero-extension of its low byte. -/
theorem zext32_imm8Of (b : Word) (h : bHigh b = 0#24) : zext32 (imm8Of b) = b := by
  apply BitVec.eq_of_getLsbD_eq
  intro k hk
  by_cases h8 : k < 8
  · simp [zext32, imm8Of, h8, hk]
  · have hb := congrArg (fun v => v.getLsbD (k - 8)) h
    have h24 : k - 8 < 24 := by omega
    have he : 8 + (k - 8) = k := by omega
    simp only [bHigh, BitVec.getLsbD_extractLsb', h24, he, decide_true, Bool.true_and, BitVec.getLsbD_zero] at hb
    simp [zext32, imm8Of, h8, hb]

end Sys2Proof
end

