-- ==== Sys2Proof/Laws/PerInstr.lean ====
section
/-!
SUPPORT. Per-instruction facts about the commands as written. Family `MatchesRow`: the encoding of a command is accepted
by the row of the opcode map that bears its mnemonic (30_encoding.md R55, R58), and its opcode field is that row's.
-/

namespace Sys2Proof

/-- Masking works field by field. -/
theorem cmdWord_and (o o' : BitVec 8) (a a' b b' : Word) :
    cmdWord o a b &&& cmdWord o' a' b' = cmdWord (o &&& o') (a &&& a') (b &&& b') := by
  unfold cmdWord
  rw [BitVec.and_append, BitVec.and_append]

theorem maskN_fields : maskN = cmdWord 0xFF#8 0xFFFFFFFF#32 0xFFFFFFFF#32 := by decide
theorem maskP_fields : maskP = cmdWord 0xFF#8 0#32 0xFFFFFFFF#32 := by decide
theorem maskPS_fields : maskPS = cmdWord 0xFF#8 0#32 0#32 := by decide
theorem maskI8_fields : maskI8 = cmdWord 0xFF#8 0xFFFFFFFF#32 0xFFFFFF00#32 := by decide

/-- The mask of format I8 hides exactly the immediate. -/
theorem zext32_and_mask (i : Byte) : zext32 i &&& 0xFFFFFF00#32 = 0#32 := by
  revert i; decide

/-- The statement of the family. -/
def Laws.MatchesRow.Statement (i : Instr) : Prop :=
  ∃ r ∈ opcodeMap, r.mnemonic = i.mnemonic ∧ r.accepts (encode i) = true ∧ opField (encode i) = opField r.pattern

theorem Laws.MatchesRow.tbuild (p : Word) : Laws.MatchesRow.Statement (.tbuild p) :=
  ⟨⟨"TBUILD", 0x010000000000000000#72, maskP⟩, by decide, rfl, by
    simp only [OpcodeRow.accepts, encode, maskP_fields, cmdWord_and, BitVec.and_zero]
    decide, by simp only [encode, opField_cmdWord]; decide⟩

theorem Laws.MatchesRow.new (p s : Word) : Laws.MatchesRow.Statement (.new p s) :=
  ⟨⟨"NEW", 0x020000000000000000#72, maskPS⟩, by decide, rfl, by
    simp only [OpcodeRow.accepts, encode, maskPS_fields, cmdWord_and, BitVec.and_zero]
    decide, by simp only [encode, opField_cmdWord]; decide⟩

theorem Laws.MatchesRow.reset : Laws.MatchesRow.Statement .reset :=
  ⟨⟨"RESET", 0x030000000000000000#72, maskN⟩, by decide, rfl, by decide, by decide⟩

theorem Laws.MatchesRow.update (i : Byte) : Laws.MatchesRow.Statement (.update i) :=
  ⟨⟨"UPDATE", 0x040000000000000000#72, maskI8⟩, by decide, rfl, by
    simp only [OpcodeRow.accepts, encode, maskI8_fields, cmdWord_and, zext32_and_mask]
    decide, by simp only [encode, opField_cmdWord]; decide⟩

theorem Laws.MatchesRow.finalize : Laws.MatchesRow.Statement .finalize :=
  ⟨⟨"FINALIZE", 0x050000000000000000#72, maskN⟩, by decide, rfl, by decide, by decide⟩

theorem Laws.MatchesRow.finalize32 : Laws.MatchesRow.Statement .finalize32 :=
  ⟨⟨"FINALIZE32", 0x060000000000000000#72, maskN⟩, by decide, rfl, by decide, by decide⟩

theorem Laws.MatchesRow.tread (i : Byte) : Laws.MatchesRow.Statement (.tread i) :=
  ⟨⟨"TREAD", 0x070000000000000000#72, maskI8⟩, by decide, rfl, by
    simp only [OpcodeRow.accepts, encode, maskI8_fields, cmdWord_and, zext32_and_mask]
    decide, by simp only [encode, opField_cmdWord]; decide⟩

end Sys2Proof
end

