-- ==== Sys2Proof/Laws/Run.lean ====
section
/-!
SUPPORT. Many steps and whole scripts, one step at a time (30_encoding.md R65).
-/

namespace Sys2Proof.Machine

@[simp] theorem run_zero (s : State) : Host.Core.run Sys2Proof.core 0 s = .next s := rfl

/-- A run of `n + 1` steps is one step, then `n` more if it went on. -/
theorem run_succ (n : Nat) (s : State) :
    Host.Core.run Sys2Proof.core (n + 1) s =
      match step s with
      | .next t => Host.Core.run Sys2Proof.core n t
      | .fault r => .fault r
      | .refused r => .refused r := by
  have h : Host.Core.step Sys2Proof.core s = step s := rfl
  refine (Host.Core.run.eq_2 Sys2Proof.core s n).trans ?_
  rw [h]
  cases step s <;> rfl

/-- A step that goes on continues the run. -/
theorem run_succ_of_next (n : Nat) (s t : State) (h : step s = .next t) :
    Host.Core.run Sys2Proof.core (n + 1) s = Host.Core.run Sys2Proof.core n t := by
  rw [run_succ, h]

@[simp] theorem runScript_nil (s : State) : runScript [] s = .next s := rfl

/-- A command that completes continues the script. -/
theorem runScript_cons_of_next (c : Instr) (cs : List Instr) (s t : State) (h : exec c s = .next t) :
    runScript (c :: cs) s = runScript cs t := by
  simp only [runScript, h]

/-- A script that completes, followed by another, is the other from where the first ends. -/
theorem runScript_append_of_next (cs ds : List Instr) : ∀ s t : State, runScript cs s = .next t →
    runScript (cs ++ ds) s = runScript ds t := by
  induction cs with
  | nil => intro s t h; cases h; rfl
  | cons c cs ih =>
    intro s t h
    simp only [runScript, List.cons_append] at h ⊢
    cases hc : exec c s with
    | next u => rw [hc] at h; exact ih u t h
    | fault r => exact nomatch r
    | refused r => rw [hc] at h; cases h

/-- What the host has yet to present does not change what a command does, and no command touches it. -/
theorem exec_of_input (i : Instr) (s : State) (rest : List HostEvent) :
    exec i { s with input := rest } =
      match exec i s with
      | .next t => .next { t with input := rest }
      | .fault r => .fault r
      | .refused r => .refused r := by
  cases i with
  | tbuild p => rfl
  | new p a => rfl
  | reset =>
    simp only [exec, execReset, State.withEngine]
    cases h : s.evalid <;> simp [h, State.setAcc, State.respond]
  | update b =>
    simp only [exec, execUpdate, State.withEngine]
    cases h : s.evalid <;> simp [h, State.setAcc, State.respond]
  | finalize =>
    simp only [exec, execFinalize, State.withEngine]
    cases h : s.evalid <;> simp [h, State.respond]
  | finalize32 =>
    simp only [exec, execFinalize32, State.withEngine]
    cases h : s.evalid <;> simp [h, State.respond]
  | tread b =>
    simp only [exec, execTread, State.withTable]
    cases h : s.tvalid <;> simp [h, State.respond]

end Sys2Proof.Machine
end

