-- ==== Sys2Proof/Tests/Slice0.lean ====
section
/-!
SUPPORT. Small checks of the model. Expected values are the spec's: 95_test_vectors.md (X: section 7, T: section 2,
U and E: section 5, Q: section 6) and the worked examples of the command rules. The second half gives, for every
statement with hypotheses, a concrete state and operands that meet them.
-/

namespace Sys2Proof.Tests

open Sys2Proof Sys2Proof.Machine

/-- The state an outcome goes on in. -/
def nextOf : Host.Outcome State Fault Refusal → Option State
  | .next t => some t
  | .fault _ => none
  | .refused _ => none

/-- Why an outcome is a refusal. -/
def refusalOf : Host.Outcome State Fault Refusal → Option Refusal
  | .next _ => none
  | .fault _ => none
  | .refused r => some r

/-- A state with an engine on the table of `p`, seed `a`, accumulator `c`. -/
def engineOn (p a c : Word) : State :=
  { State.reset with poly := p, tvalid := true, table := buildTable p, seed := a, acc := c, evalid := true }

/-- A state with a table and no engine. -/
def tableOf (p : Word) : State := { State.reset with poly := p, tvalid := true, table := buildTable p }

theorem engineOn_inv (p a c : Word) : (engineOn p a c).Inv :=
  ⟨buildTable_wf p, fun _ => rfl, fun _ => rfl⟩

/-! ## Well-formedness: for each check, a term it refuses -/

theorem test_wf_formatP_tail : CmdWord.wellFormed 0x01EDB8832000000001#72 = false := by decide
theorem test_wf_formatN_b : CmdWord.wellFormed 0x030000000000000001#72 = false := by decide
theorem test_wf_formatN_a : CmdWord.wellFormed 0x050000000100000000#72 = false := by decide
theorem test_wf_formatI8_high : CmdWord.wellFormed 0x040000000000000100#72 = false := by decide
theorem test_wf_formatI8_a : CmdWord.wellFormed 0x070000000100000031#72 = false := by decide
theorem test_wf_opcode_zero : CmdWord.wellFormed 0#72 = false := by decide
theorem test_wf_opcode_eight : CmdWord.wellFormed 0x080000000000000000#72 = false := by decide
theorem test_wf_formatPS_any : CmdWord.wellFormed 0x02FFFFFFFFFFFFFFFF#72 = true := by decide
theorem test_rows_disjoint : opcodeMap.Pairwise (fun r q =>
    r.pattern &&& (r.mask &&& q.mask) ≠ q.pattern &&& (r.mask &&& q.mask)) := by decide

theorem test_line_poly_too_large : (ScriptLine.tbuild 0x100000000).wellFormed = false := by decide
theorem test_line_seed_too_large : (ScriptLine.new 0 0x100000000).wellFormed = false := by decide
theorem test_line_byte_too_large : (ScriptLine.update 0x100).wellFormed = false := by decide
theorem test_line_index_too_large : (ScriptLine.tread 256).wellFormed = false := by decide
theorem test_line_chunk_byte_too_large : (ScriptLine.updates [0x31, 0x100]).wellFormed = false := by decide
theorem test_line_slice_past_end : (ScriptLine.updatebuf [1, 2, 3] 2 2).wellFormed = false := by decide
theorem test_line_slice_byte_too_large : (ScriptLine.updatebuf [256] 0 1).wellFormed = false := by decide
theorem test_line_compute1_byte : (ScriptLine.compute1 [256]).wellFormed = false := by decide
theorem test_line_compute2_seed : (ScriptLine.compute2 0x100000000 []).wellFormed = false := by decide
theorem test_line_compute3_poly : (ScriptLine.compute3 0x100000000 0 []).wellFormed = false := by decide
theorem test_line_slice_to_end : (ScriptLine.updatebuf [1, 2, 3] 1 2).wellFormed = true := by decide

theorem test_memory_unsorted : ¬ Memory.wf [(1, 5#32), (0, 5#32)] := by decide
theorem test_memory_lists_unlisted_value : ¬ Memory.wf [(0, 0#32)] := by decide
theorem test_memory_outside : ¬ Memory.wf [(256, 5#32)] := by decide
theorem test_memory_good : Memory.wf [(0, 1#32), (255, 5#32)] := by decide

/-! ## Decoding and encoding: words written out from R50 to R58 -/

/-- X1, from R52: op 00000001, then the polynomial, then 32 zeros. -/
theorem test_decode_tbuild :
    decode (0b00000001#8 ++ 0b11101101101110001000001100100000#32 ++ 0#32) = .command (.tbuild 0xEDB88320#32) := by decide
/-- X5, from R53: operand A is the polynomial and operand B the seed. -/
theorem test_decode_new : decode 0x0282F63B7812345678#72 = .command (.new 0x82F63B78#32 0x12345678#32) := by decide
/-- X8. -/
theorem test_decode_reset : decode 0x030000000000000000#72 = .command .reset := by decide
/-- X13, from R54: the immediate is `b[7:0]`. -/
theorem test_decode_update : decode 0x0400000000000000FF#72 = .command (.update 0xFF#8) := by decide
/-- X16. -/
theorem test_decode_finalize : decode 0x050000000000000000#72 = .command .finalize := by decide
/-- X17. -/
theorem test_decode_finalize32 : decode 0x060000000000000000#72 = .command .finalize32 := by decide
/-- X18. -/
theorem test_decode_tread : decode 0x070000000000000080#72 = .command (.tread 0x80#8) := by decide
/-- X15: format I8 with `a ≠ 0`. -/
theorem test_decode_reserved_a : decode 0x040000000100000031#72 = .reserved .formatI8 := by decide
/-- X23. -/
theorem test_decode_reserved_ones : decode 0xFFFFFFFFFFFFFFFFFF#72 = .reserved .unassignedOpcode := by decide
/-- X5: encoding gives the word back. -/
theorem test_encode_new : encode (.new 0xEDB88320#32 0xFFFFFFFF#32) = 0x02EDB88320FFFFFFFF#72 := by decide
/-- The opcode table's match value of `UPDATE`, as the host numbers its bits. -/
theorem test_decodeTableWord : decodeTableWord 72 0x040000000000000000 = some (.update 0#8) := by decide
theorem test_decodeTableWord_refuses : decodeTableWord 72 0 = none := by decide

/-! ## The table function (section 2) and the engine's functions (sections 4, 5) -/

/-- T4, T5: the low bit is tested before the shift, and the shift is logical. -/
theorem test_round : Sys2Proof.Machine.round 0xEDB88320#32 3#32 = 0xEDB88321#32
    ∧ Sys2Proof.Machine.round 0xEDB88320#32 0x80000000#32 = 0x40000000#32 := by decide
/-- T10, T12. -/
theorem test_entry : entry 0xEDB88320#32 1#8 = 0x77073096#32 ∧ entry 0xEDB88320#32 255#8 = 0x2D02EF8D#32 := by decide
/-- Q5. -/
theorem test_entry_other : entry 0x82F63B78#32 254#8 = 0x5F16D052#32 := by decide
/-- Section 4, step 1. -/
theorem test_fold1 : fold1 (buildTable 0xEDB88320#32) 0xFFFFFFFF#32 0x31#8 = 0x7C231048#32 := by
  rw [fold1, entryAt_buildTable]; decide
/-- U6. -/
theorem test_fold1_zero_byte : fold1 (buildTable 0xEDB88320#32) 0x12345678#32 0x00#8 = 0x5ECCCD58#32 := by
  rw [fold1, entryAt_buildTable]; decide
/-- E4: `compute("a")`. -/
theorem test_compute : compute 0xEDB88320#32 0xFFFFFFFF#32 [0x61#8] = 0xE8B7BE43#32 := by
  simp only [compute, fold, fold1, entryAt_buildTable]; decide
/-- S2, R108: `compute("123456789")`. -/
theorem test_known_vector : compute 0xEDB88320#32 0xFFFFFFFF#32
    [0x31#8, 0x32#8, 0x33#8, 0x34#8, 0x35#8, 0x36#8, 0x37#8, 0x38#8, 0x39#8] = 0xCBF43926#32 := by
  simp only [compute, fold, fold1, entryAt_buildTable]; decide
/-- Section 5: `ser_be(EDCBA987)` and `be_value`. -/
theorem test_serialisation : serBe 0xEDCBA987#32 = #v[0xED#8, 0xCB#8, 0xA9#8, 0x87#8]
    ∧ beValue #v[0xCB#8, 0xF4#8, 0x39#8, 0x26#8] = 0xCBF43926#32 := by decide

/-! ## One step of each command -/

/-- R69's worked example, from the hardware-reset state. -/
theorem test_tbuild : (nextOf (exec (.tbuild 0xEDB88320#32) State.reset)).map
    (fun t => (t.poly, t.tvalid, t.evalid, t.responses)) = some (0xEDB88320#32, true, false, [.ack]) := by decide
theorem test_tbuild_entry : (nextOf (exec (.tbuild 0xEDB88320#32) State.reset)).map
    (fun t => t.table.entryAt 0x80#8) = some 0xEDB88320#32 := by
  show some ((buildTable 0xEDB88320#32).entryAt 0x80#8) = _
  rw [entryAt_buildTable]; decide
/-- R76's worked example. -/
theorem test_new : (nextOf (exec (.new 0xEDB88320#32 0x12345678#32) State.reset)).map
    (fun t => (t.poly, t.tvalid, t.seed, t.acc, t.evalid)) =
      some (0xEDB88320#32, true, 0x12345678#32, 0x12345678#32, true) := by decide
/-- R78's worked example. -/
theorem test_reset : (nextOf (exec .reset (engineOn 0#32 0xFFFFFFFF#32 0x340BC6D9#32))).map
    (fun t => (t.seed, t.acc)) = some (0xFFFFFFFF#32, 0xFFFFFFFF#32) := by decide
/-- R114. -/
theorem test_reset_refused : refusalOf (exec .reset (tableOf 0#32)) = some .noEngine := by decide
/-- R85's worked example, second byte. -/
theorem test_update : (nextOf (exec (.update 0x32#8) (engineOn 0xEDB88320#32 0#32 0x7C231048#32))).map
    (fun t => t.acc) = some 0xB0ACBB32#32 := by
  show some (fold1 (buildTable 0xEDB88320#32) 0x7C231048#32 0x32#8) = _
  rw [fold1, entryAt_buildTable]; decide
theorem test_update_refused : refusalOf (exec (.update 0x31#8) (tableOf 0#32)) = some .noEngine := by decide
/-- R95's worked example. -/
theorem test_finalize : (nextOf (exec .finalize (engineOn 0#32 0#32 0x340BC6D9#32))).map (fun t => t.responses) =
    some [.bytes4 #v[0xCB#8, 0xF4#8, 0x39#8, 0x26#8]] := by decide
theorem test_finalize_refused : refusalOf (exec .finalize State.reset) = some .noEngine := by decide
/-- R96's worked example: after the complement. -/
theorem test_finalize32 : (nextOf (exec .finalize32 (engineOn 0#32 0#32 0x340BC6D9#32))).map
    (fun t => (t.acc, t.responses)) = some (0x340BC6D9#32, [.word 0xCBF43926#32]) := by decide
theorem test_finalize32_refused : refusalOf (exec .finalize32 (tableOf 0#32)) = some .noEngine := by decide
/-- P3 step 4: `TREAD 0xFF` with polynomial 0x82F63B78, no engine. -/
theorem test_tread : (nextOf (exec (.tread 0xFF#8) (tableOf 0x82F63B78#32))).map (fun t => t.responses) =
    some [.word 0xAD7D5351#32] := by
  show some [Response.word ((buildTable 0x82F63B78#32).entryAt 0xFF#8)] = _
  rw [entryAt_buildTable]; decide
theorem test_tread_refused : refusalOf (exec (.tread 0#8) State.reset) = some .noTable := by decide

/-! ## Steps -/

/-- The first instruction after reset, as the host places it. -/
theorem test_first_step : (nextOf (step (State.reset.withFetchWord 72 0x02EDB88320FFFFFFFF))).map
    (fun t => (t.seed, t.evalid, t.input)) = some (0xFFFFFFFF#32, true, []) := by decide
/-- X4: a reserved word is refused whatever the state. -/
theorem test_step_reserved : refusalOf (step ((engineOn 0#32 0#32 0#32).withFetchWord 72 0x01EDB8832000000001))
    = some (.reserved .formatP) := by decide
/-- R126: hardware reset ends the engine and gives no response. -/
theorem test_step_hardware_reset : (nextOf (step { engineOn 0#32 0#32 0#32 with input := [.hardwareReset] })).map
    (fun t => (t.tvalid, t.evalid, t.responses)) = some (false, false, []) := by decide

/-! ## Script lines (R64, R86, R87, R104) -/

theorem test_text_new : assembleText [' ', 'N', 'E', 'W', ' ', '0', 'x', 'F', 'f', ',', ' ', '1', '0', ' ', ';', 'n'] =
    some [.new 0xFF#32 10#32] := by decide
theorem test_text_updates : assembleText ['U', 'P', 'D', 'A', 'T', 'E', 'S', ' ', '[', '0', 'x', '3', '1', ',', '5', '0', ']']
    = some [.update 0x31#8, .update 0x32#8] := by decide
theorem test_text_string : assembleText ['U', 'P', 'D', 'A', 'T', 'E', 'S', ' ', '"', '1', ',', '"'] =
    some [.update 0x31#8, .update 0x2C#8] := by decide
theorem test_text_empty_chunk : assembleText ['U', 'P', 'D', 'A', 'T', 'E', 'S', ' ', '[', ']'] = some [] := by decide
theorem test_text_range : assembleText ['T', 'R', 'E', 'A', 'D', ' ', '2', '5', '6'] = none := by decide
theorem test_text_small_letters : assembleText ['r', 'e', 's', 'e', 't'] = none := by decide
theorem test_text_comment : assembleText [';', ' ', 'R', 'E', 'S', 'E', 'T'] = some [] := by decide
/-- Section 5: `UPDATEBUF "0123456789", 3, 4` assembles to `UPDATES "3456"`. -/
theorem test_updatebuf : assemble (.updatebuf [48, 49, 50, 51, 52, 53, 54, 55, 56, 57] 3 4) =
    some [.update 0x33#8, .update 0x34#8, .update 0x35#8, .update 0x36#8] := by decide
/-- R104: the first command of `COMPUTE1`. -/
theorem test_compute1 : assemble (.compute1 [0x61]) =
    some [.new 0xEDB88320#32 0xFFFFFFFF#32, .update 0x61#8, .finalize32] := by decide

/-! ## Witnesses: the hypotheses of each statement can be met -/

theorem witness_EncodeAndDecodeAreInverse : decode 0x0182F63B7800000000#72 = .command (.tbuild 0x82F63B78#32) := by decide

theorem witness_DecodeFollowsOpcodeMap :
    (opField 0x00FFFFFFFFFFFFFFFF#72).toNat < 1 ∧ 7 < (opField 0x080000000000000000#72).toNat
      ∧ 7 < (opField 0xFF0000000000000000#72).toNat ∧ (⟨"TREAD", 0x070000000000000000#72, maskI8⟩ : OpcodeRow) ∈ opcodeMap := by
  decide

theorem witness_ReservedWordsAreRefused :
    { State.reset with input := [.command 0x080000000000000000#72] }.input = .command 0x080000000000000000#72 :: []
      ∧ decode 0x080000000000000000#72 = .reserved .unassignedOpcode ∧ decode 0x01EDB8832000000001#72 = .reserved .formatP
      ∧ decode 0x060000000000000001#72 = .reserved .formatN ∧ decode 0x070000000000000100#72 = .reserved .formatI8 := by
  decide

theorem witness_StepRunsDecodedCommand :
    { State.reset with input := [.command 0x050000000000000000#72, .hardwareReset] }.input
        = .command 0x050000000000000000#72 :: [.hardwareReset]
      ∧ decode 0x050000000000000000#72 = .command .finalize := by decide

theorem witness_IdleStatePersists : (engineOn 1#32 2#32 3#32).input = [] := rfl

theorem witness_HardwareResetEndsEngineAndTable :
    { engineOn 1#32 2#32 3#32 with input := [.hardwareReset] }.input = .hardwareReset :: [] := rfl

theorem witness_ResponsesComeOnlyFromCommands :
    step State.reset = .next State.reset
      ∧ (∃ t, step { State.reset with input := [.hardwareReset] } = .next t)
      ∧ ∃ t, step { State.reset with input := [.command 0x010000000000000000#72] } = .next t ∧ t.responses = [.ack] := by
  refine ⟨rfl, ⟨_, rfl⟩, ⟨((State.reset.loadTable 0#32).endEngine).respond .ack, ?_, rfl⟩⟩
  have hd : decode 0x010000000000000000#72 = .command (.tbuild 0#32) := by decide
  simp only [step, State.fetch, hd]
  rfl

theorem witness_ResetCommandResult :
    (engineOn 1#32 2#32 3#32).evalid = true ∧ State.reset.evalid = false
      ∧ ∃ t, exec (.new 1#32 2#32) State.reset = .next t := ⟨rfl, rfl, _, rfl⟩

theorem witness_UpdateResult :
    (engineOn 1#32 2#32 3#32).evalid = true ∧ (tableOf 1#32).evalid = false ∧ (engineOn 1#32 2#32 3#32).Inv :=
  ⟨rfl, rfl, engineOn_inv _ _ _⟩

theorem witness_FinalizeResult :
    (engineOn 1#32 2#32 3#32).evalid = true ∧ (tableOf 1#32).evalid = false
      ∧ ∃ t, exec (.new 1#32 0#32) (tableOf 1#32) = .next t := ⟨rfl, rfl, _, rfl⟩

theorem witness_Finalize32Result :
    (engineOn 1#32 2#32 0xFFFFFFFF#32).evalid = true ∧ State.reset.evalid = false
      ∧ ∃ t, exec (.new 0#32 2#32) (engineOn 1#32 2#32 3#32) = .next t := ⟨rfl, rfl, _, rfl⟩

theorem witness_TreadResult :
    (tableOf 1#32).tvalid = true ∧ State.reset.tvalid = false ∧ (engineOn 1#32 2#32 3#32).Inv
      ∧ (engineOn 1#32 2#32 3#32).tvalid = true := ⟨rfl, rfl, engineOn_inv _ _ _, rfl⟩

theorem witness_CompletesExactlyWhenReady :
    State.reset.tvalid = false ∧ (tableOf 1#32).evalid = false ∧ ready .finalize (engineOn 1#32 2#32 3#32) = true
      ∧ ready (.tread 0#8) (tableOf 1#32) = true := by decide

theorem witness_ResponseOfEachCommand :
    (∃ t, exec (.tbuild 1#32) State.reset = .next t) ∧ (∃ t, exec (.new 1#32 2#32) State.reset = .next t)
      ∧ (∃ t, exec .reset (engineOn 1#32 2#32 3#32) = .next t)
      ∧ (∃ t, exec (.update 4#8) (engineOn 1#32 2#32 3#32) = .next t)
      ∧ (∃ t, exec .finalize (engineOn 1#32 2#32 3#32) = .next t)
      ∧ (∃ t, exec .finalize32 (engineOn 1#32 2#32 3#32) = .next t)
      ∧ (∃ t, exec (.tread 255#8) (tableOf 1#32) = .next t) :=
  ⟨⟨_, rfl⟩, ⟨_, rfl⟩, ⟨_, rfl⟩, ⟨_, rfl⟩, ⟨_, rfl⟩, ⟨_, rfl⟩, ⟨_, rfl⟩⟩

theorem witness_AccumulatorCommandsFrame :
    (∃ t, exec .reset (engineOn 1#32 2#32 3#32) = .next t)
      ∧ ∃ t, exec (.update 4#8) (engineOn 1#32 2#32 3#32) = .next t := ⟨⟨_, rfl⟩, ⟨_, rfl⟩⟩

theorem witness_ReadingCommandsFrame :
    (∃ t, exec .finalize (engineOn 1#32 2#32 3#32) = .next t)
      ∧ (∃ t, exec .finalize32 (engineOn 1#32 2#32 3#32) = .next t)
      ∧ ∃ t, exec (.tread 0#8) (tableOf 1#32) = .next t := ⟨⟨_, rfl⟩, ⟨_, rfl⟩, ⟨_, rfl⟩⟩

theorem witness_BuildCommandsFrame :
    (∃ t, exec (.tbuild 1#32) (engineOn 1#32 2#32 3#32) = .next t)
      ∧ (∃ t, exec (.new 1#32 2#32) State.reset = .next t) ∧ Config.tableEntries ≤ 256 := ⟨⟨_, rfl⟩, ⟨_, rfl⟩, by decide⟩

/-- A step that presents the word `w` of the command `i` from `s`. -/
theorem step_presents (s : State) (w : CmdWord) (i : Instr) (t : State) (hd : decode w = .command i)
    (h : exec i { s with input := [] } = .next t) : step { s with input := [.command w] } = .next t := by
  simp only [step, State.fetch, hd, h]

theorem witness_OnlyNamedCommandsWriteEachRegister :
    ∃ t, step { State.reset with input := [.command 0x020000000100000002#72] } = .next t
      ∧ decode 0x020000000100000002#72 = .command (.new 1#32 2#32)
      ∧ t.poly ≠ State.reset.poly ∧ t.seed ≠ State.reset.seed ∧ t.acc ≠ State.reset.acc := by
  have hd : decode 0x020000000100000002#72 = .command (.new 1#32 2#32) := by decide
  exact ⟨_, step_presents State.reset _ _ _ hd rfl, hd, by decide, by decide, by decide⟩

theorem witness_ValidBitsChangeOnlyAsNamed :
    (∃ t, step { engineOn 1#32 2#32 3#32 with input := [.hardwareReset] } = .next t ∧ t.tvalid = false ∧ t.evalid = false)
      ∧ (∃ t, step { State.reset with input := [.command 0x020000000100000002#72] } = .next t
          ∧ t.tvalid = true ∧ t.evalid = true)
      ∧ ∃ t, step { engineOn 1#32 2#32 3#32 with input := [.command 0x010000000100000000#72] } = .next t
          ∧ t.evalid = false := by
  refine ⟨⟨_, rfl, rfl, rfl⟩, ⟨_, step_presents State.reset _ (.new 1#32 2#32) _ (by decide) rfl, rfl, rfl⟩,
    ⟨_, step_presents (engineOn 1#32 2#32 3#32) _ (.tbuild 1#32) _ (by decide) rfl, rfl⟩⟩

theorem witness_RebuildingTwiceIsOnce :
    (∃ t, exec (.tbuild 1#32) State.reset = .next t) ∧ (∃ t, exec (.new 1#32 2#32) State.reset = .next t)
      ∧ ∃ t, exec .reset (engineOn 1#32 2#32 3#32) = .next t := ⟨⟨_, rfl⟩, ⟨_, rfl⟩, ⟨_, rfl⟩⟩

theorem witness_StepKeepsInvariant :
    (engineOn 1#32 2#32 3#32).Inv
      ∧ ((engineOn 1#32 2#32 3#32).withFetchWord 72 0x040000000000000031).Inv
      ∧ ∃ t, step { engineOn 1#32 2#32 3#32 with input := [.command 0x040000000000000031#72] } = .next t :=
  ⟨engineOn_inv _ _ _, ⟨buildTable_wf 1#32, fun _ => rfl, fun _ => rfl⟩,
    _, step_presents (engineOn 1#32 2#32 3#32) _ (.update 0x31#8) _ (by decide) rfl⟩

theorem witness_ReachableTableIsBuiltFromPoly :
    ∃ t, Host.Core.run Sys2Proof.core 1 { State.reset with input := [.command 0x010000000100000000#72] } = .next t
      ∧ t.tvalid = true := by
  have h : step { State.reset with input := [.command 0x010000000100000000#72] }
      = .next (((State.reset.loadTable 1#32).endEngine).respond .ack) :=
    step_presents State.reset _ (.tbuild 1#32) _ (by decide) rfl
  exact ⟨_, run_succ_of_next 0 _ _ h, rfl⟩

theorem witness_AccumulatorIsFoldSinceStart :
    State.reset.evalid = false
      ∧ ∃ t, runScript [.new 1#32 2#32, .update 3#8, .reset, .update 4#8] State.reset = .next t ∧ t.evalid = true :=
  ⟨rfl, _, rfl, rfl⟩

theorem witness_LiveEngineAcceptsEveryScript :
    (engineOn 1#32 2#32 3#32).Inv ∧ (engineOn 1#32 2#32 3#32).evalid = true
      ∧ ∀ c ∈ [Instr.update 1#8, .finalize, .new 5#32 6#32, .tread 0#8], isTbuild c = false :=
  ⟨engineOn_inv _ _ _, rfl, by decide⟩

/-- The hardware-reset state with other values in every component that the valid bits hide. -/
def otherReset : State := { State.reset with poly := 1#32, table := buildTable 2#32, seed := 3#32, acc := 4#32 }

theorem witness_UnspecifiedValuesAreNotObservable :
    State.reset.Inv ∧ otherReset.Inv ∧ State.reset.sameVisible otherReset ∧ State.reset.acc ≠ otherReset.acc := by
  refine ⟨⟨State.reset_table_wf, ?_, ?_⟩, ⟨buildTable_wf 2#32, ?_, ?_⟩, ⟨rfl, rfl, ?_, ?_, rfl, rfl⟩, by decide⟩ <;>
    simp [State.reset, otherReset]

theorem witness_NewForgetsThePast :
    (engineOn 1#32 2#32 3#32).input = State.reset.input ∧ (engineOn 1#32 2#32 3#32).responses = State.reset.responses :=
  ⟨rfl, rfl⟩

/-- The first copy of every system. -/
def copy0 : Fin Config.numInstances := ⟨0, Nat.succ_pos _⟩

/-- A copy with nothing presented goes on; a copy presented a reserved word is refused. -/
theorem witness_InstancesShareNothing :
    (∃ s t, System.reset[copy0] = .running s ∧ step s = .next t)
      ∧ ∃ (sys : System) (s : State), sys[copy0] = .running s ∧ step s = .refused (.reserved .unassignedOpcode) := by
  refine ⟨⟨_, _, System.reset_get copy0, rfl⟩, System.reset.set copy0 (.running (State.reset.withFetchWord 72 0)),
    State.reset.withFetchWord 72 0, by simp, ?_⟩
  have hd : decode (tableWord 72 0) = .reserved .unassignedOpcode := by decide
  simp [step, State.fetch, State.withFetchWord, hd]

/-- One copy runs, every other is refused. -/
theorem witness_CopiesStartResetWithOwnSources :
    System.sourcesApart ((Vector.replicate _ (.refused .noTable)).set copy0 (.running State.reset)) := by
  have only : ∀ (j : Fin Config.numInstances) (s : State),
      ((Vector.replicate _ (Copy.refused .noTable)).set copy0 (.running State.reset))[j] = .running s → j = copy0 := by
    intro j s hs
    by_contra hj
    have hne : copy0.val ≠ j.val := fun h => hj (Fin.ext h.symm)
    simp [hne] at hs
  exact fun j k s t hj hk _ => (only j s hj).trans (only k t hk).symm

/-- The four outcomes of a step, each at some state. -/
theorem witness_StepIsNextOrNamedRefusal :
    (∃ t, step State.reset = .next t)
      ∧ refusalOf (step (State.reset.withFetchWord 72 0)) = some (.reserved .unassignedOpcode)
      ∧ refusalOf (step (State.reset.withFetchWord 72 0x070000000000000000)) = some .noTable
      ∧ refusalOf (step ((tableOf 1#32).withFetchWord 72 0x050000000000000000)) = some .noEngine :=
  ⟨⟨_, rfl⟩, by decide, by decide, by decide⟩

/-- An engine that has folded nothing yet, before each kind of step. -/
theorem witness_StepKeepsAccumulatorFold :
    (engineOn 1#32 2#32 2#32).FoldInv [] ∧ (∃ t, step (engineOn 1#32 2#32 2#32) = .next t)
      ∧ (∃ t, step { engineOn 1#32 2#32 2#32 with input := [.hardwareReset] } = .next t)
      ∧ ∃ t, step { engineOn 1#32 2#32 2#32 with input := [.command 0x040000000000000031#72] } = .next t :=
  ⟨fun _ => ⟨rfl, rfl⟩, ⟨_, rfl⟩, ⟨_, rfl⟩, _, step_presents (engineOn 1#32 2#32 2#32) _ (.update 0x31#8) _ (by decide) rfl⟩

theorem test_line_updates_boundary : assemble (.updates [255]) = some [.update 255#8] ∧ assemble (.updates [256]) = none
    ∧ assemble (.updatebuf [256] 0 0) = none ∧ assemble (.compute1 [256]) = none
    ∧ assemble (.compute2 (2 ^ 32) []) = none ∧ assemble (.compute3 0 (2 ^ 32) []) = none := by decide

theorem witness_TableFixedEntries : (0 : Nat) < 8 ∧ (7 : Nat) < 8 ∧ BitVec.ofNat 8 (2 ^ 7) = 128#8 := by decide

theorem witness_FoldIsBijectiveInAccumulator : distinctTopBytes (Memory.writeAll fun i => i ++ 0#24) := by
  have top : ∀ i : Byte, (i ++ 0#24 : Word).extractLsb' 24 8 = i := by decide
  intro i j h
  simpa only [Memory.entryAt_writeAll, top] using h

theorem witness_ZeroPolynomialOnlyShifts : 4 ≤ [0xFF#8, 0#8, 1#8, 2#8].length := by decide

theorem witness_DigestFormsAgree :
    (∃ t, exec .finalize (engineOn 1#32 2#32 3#32) = .next t)
      ∧ ∃ u, exec .finalize32 (engineOn 1#32 2#32 3#32) = .next u := ⟨⟨_, rfl⟩, ⟨_, rfl⟩⟩

theorem witness_PrefixDigestsAreReadable : (engineOn 1#32 2#32 3#32).evalid = true := rfl

theorem witness_UpdatesFoldsTheChunk : (engineOn 0xEDB88320#32 2#32 3#32).evalid = true := rfl

theorem witness_SeedSensitivity : 0x00000000#32 ≠ 0xFFFFFFFF#32 ∧ 4 ≤ [0xFF#8, 0#8, 1#8, 2#8, 3#8].length := by decide

theorem witness_UpdatebufTakesStartToStartPlusLength :
    (∀ n ∈ [0, 255], n < 256) ∧ 1 + 1 ≤ [0, 255].length ∧ (0 : Nat) < 1
      ∧ [0, 255].length < 2 + 1 := by decide

theorem witness_OneshotLinesUseDefaults :
    0xFFFFFFFF < 2 ^ 32 ∧ 0 < 2 ^ 32 ∧ ∀ n ∈ [0, 255], n < 256 := by decide

end Sys2Proof.Tests
end

section
/-!
PROOFS. What one step is, an equation per kind of host event (30_encoding.md R65, 70_reset_and_hazards.md R136), and the
runs that stop or go on: inversions and the one induction over steps.
-/

namespace Sys2Proof.Machine

/-- Nothing presented: the state persists (41_engine_lifecycle.md R81). -/
theorem step_of_idle (s : State) (hi : s.input = []) : step s = .next s := by
  simp [step, State.fetch, hi]

/-- A hardware reset applies in every state (70_reset_and_hazards.md R126). -/
theorem step_of_hardwareReset (s : State) (rest : List HostEvent) (hi : s.input = .hardwareReset :: rest) :
    step s = .next (State.hardwareReset { s with input := rest }) := by
  simp [step, State.fetch, hi]

/-- A reserved word is refused whatever the state (60_exceptions.md R115). -/
theorem step_of_reserved (s : State) (w : CmdWord) (rest : List HostEvent) (why : Reserved)
    (hi : s.input = .command w :: rest) (hd : decode w = .reserved why) : step s = .refused (.reserved why) := by
  simp [step, State.fetch, hi, hd]

/-- A word that decodes runs its command with the word taken off the input (30_encoding.md R57). -/
theorem step_of_command (s : State) (w : CmdWord) (rest : List HostEvent) (i : Instr)
    (hi : s.input = .command w :: rest) (hd : decode w = .command i) : step s = exec i { s with input := rest } := by
  simp [step, State.fetch, hi, hd]

/-- A refused step ends the run there. -/
theorem run_succ_of_refused (n : Nat) (s : State) (r : Refusal) (h : step s = .refused r) :
    Host.Core.run Sys2Proof.core (n + 1) s = .refused r := by
  rw [run_succ, h]

/-- A run of `n + 1` steps that goes on took a step that goes on. -/
theorem run_succ_next (n : Nat) (s t : State) (h : Host.Core.run Sys2Proof.core (n + 1) s = .next t) :
    ∃ u, step s = .next u ∧ Host.Core.run Sys2Proof.core n u = .next t := by
  rw [run_succ] at h
  cases hs : step s with
  | next u => rw [hs] at h; exact ⟨u, rfl, h⟩
  | fault r => exact nomatch r
  | refused r => rw [hs] at h; cases h

/-- What every step keeps, every run keeps. -/
theorem run_keeps (P : State → Prop) (hstep : ∀ s t, P s → step s = .next t → P t) (n : Nat) :
    ∀ s t, P s → Host.Core.run Sys2Proof.core n s = .next t → P t := by
  induction n with
  | zero => intro s t hs h; cases h; exact hs
  | succ n ih =>
    intro s t hs h
    obtain ⟨u, hu, ht⟩ := run_succ_next n s t h
    exact ih u t (hstep s u hs hu) ht

/-- A refused command refuses the script from there (30_encoding.md R65). -/
theorem runScript_cons_of_refused (c : Instr) (cs : List Instr) (s : State) (r : Refusal) (h : exec c s = .refused r) :
    runScript (c :: cs) s = .refused r := by
  simp only [runScript, h]

/-- A script that completes began with a command that completes. -/
theorem runScript_cons_next (c : Instr) (cs : List Instr) (s t : State) (h : runScript (c :: cs) s = .next t) :
    ∃ u, exec c s = .next u ∧ runScript cs u = .next t := by
  cases hc : exec c s with
  | next u => exact ⟨u, rfl, runScript_cons_of_next c cs s u hc ▸ h⟩
  | fault r => exact nomatch r
  | refused r => rw [runScript_cons_of_refused c cs s r hc] at h; cases h

end Sys2Proof.Machine
end

section
/-!
PROOFS. What a command does to the table and to the engine, and the frames and valid bits that follow (10_state.md R17 to
R25).
-/

namespace Sys2Proof.Machine

/-- `POLY`, `TABLE` and `TVALID` change together, in a build, or not at all. -/
theorem exec_table_cases (i : Instr) (s t : State) (h : exec i s = .next t) :
    (((∃ p, i = .tbuild p) ∨ ∃ p a, i = .new p a) ∧ t.tvalid = true)
    ∨ (t.poly = s.poly ∧ t.table = s.table ∧ t.tvalid = s.tvalid) := by
  obtain ⟨p, hi, rfl⟩ | ⟨p, a, hi, rfl⟩ | ⟨-, -, rfl⟩ | ⟨b, -, -, rfl⟩ | ⟨-, -, rfl⟩ | ⟨-, -, rfl⟩ | ⟨b, -, -, rfl⟩ :=
    exec_next_cases i s t h
  · exact .inl ⟨.inl ⟨p, hi⟩, rfl⟩
  · exact .inl ⟨.inr ⟨p, a, hi⟩, rfl⟩
  all_goals exact .inr ⟨rfl, rfl, rfl⟩

/-- `EVALID` is cleared by `TBUILD`, set by `NEW`, and kept by every other command (R21). -/
theorem exec_evalid_cases (i : Instr) (s t : State) (h : exec i s = .next t) :
    ((∃ p, i = .tbuild p) ∧ t.evalid = false) ∨ ((∃ p a, i = .new p a) ∧ t.evalid = true) ∨ t.evalid = s.evalid := by
  obtain ⟨p, hi, rfl⟩ | ⟨p, a, hi, rfl⟩ | ⟨-, -, rfl⟩ | ⟨b, -, -, rfl⟩ | ⟨-, -, rfl⟩ | ⟨-, -, rfl⟩ | ⟨b, -, -, rfl⟩ :=
    exec_next_cases i s t h
  · exact .inl ⟨⟨p, hi⟩, rfl⟩
  · exact .inr (.inl ⟨⟨p, a, hi⟩, rfl⟩)
  all_goals exact .inr (.inr rfl)

/-- `SEED` is written by `NEW` alone (R23). -/
theorem exec_seed_cases (i : Instr) (s t : State) (h : exec i s = .next t) :
    (∃ p a, i = .new p a) ∨ t.seed = s.seed := by
  obtain ⟨p, -, rfl⟩ | ⟨p, a, hi, -⟩ | ⟨-, -, rfl⟩ | ⟨b, -, -, rfl⟩ | ⟨-, -, rfl⟩ | ⟨-, -, rfl⟩ | ⟨b, -, -, rfl⟩ :=
    exec_next_cases i s t h
  case inr.inl => exact .inl ⟨p, a, hi⟩
  all_goals exact .inr rfl

/-- `ACC` is written by `NEW`, `RESET` and `UPDATE` (R25). -/
theorem exec_acc_cases (i : Instr) (s t : State) (h : exec i s = .next t) :
    ((∃ p a, i = .new p a) ∨ i = .reset ∨ ∃ b, i = .update b) ∨ t.acc = s.acc := by
  obtain ⟨p, -, rfl⟩ | ⟨p, a, hi, -⟩ | ⟨hi, -, -⟩ | ⟨b, hi, -, -⟩ | ⟨-, -, rfl⟩ | ⟨-, -, rfl⟩ | ⟨b, -, -, rfl⟩ :=
    exec_next_cases i s t h
  · exact .inr rfl
  · exact .inl (.inl ⟨p, a, hi⟩)
  · exact .inl (.inr (.inl hi))
  · exact .inl (.inr (.inr ⟨b, hi⟩))
  all_goals exact .inr rfl

/-- What a step does to `TVALID` (R20). -/
theorem step_tvalid_cases (s t : State) (h : step s = .next t) :
    ((∃ rest, s.input = .hardwareReset :: rest) ∧ t.tvalid = false)
    ∨ ((∃ w rest, s.input = .command w :: rest
        ∧ ((∃ p, decode w = .command (.tbuild p)) ∨ ∃ p a, decode w = .command (.new p a))) ∧ t.tvalid = true)
    ∨ t.tvalid = s.tvalid := by
  obtain ⟨-, rfl⟩ | ⟨rest, hi, rfl⟩ | ⟨w, rest, i, hi, hd, he⟩ := step_next_cases s t h
  · exact .inr (.inr rfl)
  · exact .inl ⟨⟨rest, hi⟩, rfl⟩
  · obtain ⟨⟨p, rfl⟩ | ⟨p, a, rfl⟩, hv⟩ | ⟨-, -, hv⟩ := exec_table_cases i _ t he
    · exact .inr (.inl ⟨⟨w, rest, hi, .inl ⟨p, hd⟩⟩, hv⟩)
    · exact .inr (.inl ⟨⟨w, rest, hi, .inr ⟨p, a, hd⟩⟩, hv⟩)
    · exact .inr (.inr hv)

/-- What a step does to `EVALID` (R21). -/
theorem step_evalid_cases (s t : State) (h : step s = .next t) :
    (((∃ rest, s.input = .hardwareReset :: rest)
        ∨ ∃ w rest p, s.input = .command w :: rest ∧ decode w = .command (.tbuild p)) ∧ t.evalid = false)
    ∨ ((∃ w rest p a, s.input = .command w :: rest ∧ decode w = .command (.new p a)) ∧ t.evalid = true)
    ∨ t.evalid = s.evalid := by
  obtain ⟨-, rfl⟩ | ⟨rest, hi, rfl⟩ | ⟨w, rest, i, hi, hd, he⟩ := step_next_cases s t h
  · exact .inr (.inr rfl)
  · exact .inl ⟨.inl ⟨rest, hi⟩, rfl⟩
  · obtain ⟨⟨p, rfl⟩, hv⟩ | ⟨⟨p, a, rfl⟩, hv⟩ | hv := exec_evalid_cases i _ t he
    · exact .inl ⟨.inr ⟨w, rest, p, hi, hd⟩, hv⟩
    · exact .inr (.inl ⟨⟨w, rest, p, a, hi, hd⟩, hv⟩)
    · exact .inr (.inr hv)

/-- Settles O27: the frame of each register, read from the command the step runs. -/
theorem onlyNamedCommandsWriteEachRegister : Obligations.OnlyNamedCommandsWriteEachRegister := by
  intro s t w rest i h hi hd
  rw [step_of_command s w rest i hi hd] at h
  refine ⟨fun hw => ?_, (exec_seed_cases i _ t h).resolve_right, (exec_acc_cases i _ t h).resolve_right⟩
  obtain ⟨hb, -⟩ | ⟨hp, ht, -⟩ := exec_table_cases i _ t h
  · exact hb
  · exact absurd hw (not_or_intro (not_not_intro hp) (not_not_intro ht))

/-- Settles O28: a valid bit that differs after the step was set or cleared by a named event. -/
theorem validBitsChangeOnlyAsNamed : Obligations.ValidBitsChangeOnlyAsNamed := by
  intro s t h
  have htable := step_tvalid_cases s t h
  have hengine := step_evalid_cases s t h
  refine ⟨fun hs ht => ?_, fun hs ht => ?_, fun hs ht => ?_, fun hs ht => ?_⟩
  · simpa [hs, ht] using htable
  · simpa [hs, ht] using htable
  · simpa [hs, ht] using hengine
  · simpa [hs, ht] using hengine

end Sys2Proof.Machine
end

section
/-!
PROOFS. The machine's invariant (10_state.md R22, R27, R28 (a)): it holds after reset, every command and every step keep
it, so every run does.
-/

namespace Sys2Proof.Machine

theorem State.reset_inv : State.reset.Inv := ⟨State.reset_table_wf, nofun, nofun⟩

/-- `NEW` leaves the invariant whatever it started from. -/
theorem exec_new_establishes_inv (p a : Word) (s t : State) (h : exec (.new p a) s = .next t) : t.Inv := by
  cases h
  exact ⟨buildTable_wf p, fun _ => rfl, fun _ => rfl⟩

/-- A build makes the table of `POLY`; the other commands leave `POLY`, `TABLE` and both valid bits alone. -/
theorem exec_keeps_inv (i : Instr) (s t : State) (hs : s.Inv) (h : exec i s = .next t) : t.Inv := by
  obtain ⟨p, -, rfl⟩ | ⟨p, a, rfl, -⟩ | ⟨-, -, rfl⟩ | ⟨b, -, -, rfl⟩ | ⟨-, -, rfl⟩ | ⟨-, -, rfl⟩ | ⟨b, -, -, rfl⟩ :=
    exec_next_cases i s t h
  · exact ⟨buildTable_wf p, nofun, fun _ => rfl⟩
  · exact exec_new_establishes_inv p a s t h
  all_goals exact hs

/-- After a hardware reset both valid bits are 0, so only the canonical form of the store is left to hold. -/
theorem State.hardwareReset_inv (s : State) : s.hardwareReset.Inv := ⟨Memory.writeAll_wf _, nofun, nofun⟩

theorem step_keeps_inv (s t : State) (hs : s.Inv) (h : step s = .next t) : t.Inv := by
  obtain ⟨-, rfl⟩ | ⟨rest, -, rfl⟩ | ⟨w, rest, i, -, -, he⟩ := step_next_cases s t h
  · exact hs
  · exact State.hardwareReset_inv _
  · exact exec_keeps_inv i { s with input := rest } t hs he

/-- Settles O30, by the three kinds of host event. -/
theorem stepKeepsInvariant : Obligations.StepKeepsInvariant := step_keeps_inv

/-- Settles O9. -/
theorem resetStateMeetsInvariant : Obligations.ResetStateMeetsInvariant := ⟨rfl, rfl, State.reset_inv⟩

/-- Settles O31: the invariant along the run from reset. -/
theorem reachableTableIsBuiltFromPoly : Obligations.ReachableTableIsBuiltFromPoly := by
  intro evs n t h hv
  obtain ⟨-, -, htable⟩ : t.Inv := run_keeps State.Inv step_keeps_inv n { State.reset with input := evs } t
    State.reset_inv h
  exact ⟨htable hv, fun i => by rw [htable hv, entryAt_buildTable]⟩

end Sys2Proof.Machine
end

section
/-!
PROOFS. `ACC` is the fold of the bytes since the last `NEW` or `RESET` (10_state.md R28 (b)): per command, per step, per
script.
-/

namespace Sys2Proof.Machine

/-- Folding chunk after chunk is folding their concatenation (42_engine_update.md R89). -/
theorem fold_append (T : Memory) (xs ys : List Byte) : ∀ a, fold T a (xs ++ ys) = fold T (fold T a xs) ys := by
  induction xs with
  | nil => intro a; rfl
  | cons x xs ih => intro a; exact ih (fold1 T a x)

/-- The bytes since the start, one command at a time. -/
theorem bytesSinceStart_cons (bs : List Byte) (c : Instr) (cs : List Instr) :
    bytesSinceStart bs (c :: cs) = bytesSinceStart (bytesSinceStart bs [c]) cs := by
  cases c <;> rfl

/-- Without an engine the fold property says nothing. -/
theorem State.foldInv_of_no_engine (bs : List Byte) (s : State) (h : s.evalid = false) : s.FoldInv bs :=
  fun he => absurd he (by simp [h])

/-- `TBUILD` ends the engine, `NEW` and `RESET` make `ACC` the fold of no byte, `UPDATE` folds one byte more, and the
commands that read leave the block alone. -/
theorem exec_keeps_foldInv (bs : List Byte) (i : Instr) (s t : State) (hs : s.FoldInv bs) (h : exec i s = .next t) :
    t.FoldInv (bytesSinceStart bs [i]) := by
  obtain ⟨p, rfl, rfl⟩ | ⟨p, a, rfl, rfl⟩ | ⟨rfl, he, rfl⟩ | ⟨b, rfl, he, rfl⟩ | ⟨rfl, -, rfl⟩ | ⟨rfl, -, rfl⟩
    | ⟨b, rfl, -, rfl⟩ := exec_next_cases i s t h
  · exact State.foldInv_of_no_engine _ _ rfl
  · exact fun _ => ⟨rfl, rfl⟩
  · obtain ⟨hv, -⟩ := hs he
    exact fun _ => ⟨hv, rfl⟩
  · obtain ⟨hv, hacc⟩ := hs he
    have hfold : fold1 s.table s.acc b = fold s.table s.seed (bs ++ [b]) := by rw [fold_append, ← hacc]; rfl
    exact fun _ => ⟨hv, hfold⟩
  all_goals exact hs

/-- A script that completes keeps the fold property, for the bytes its commands make. -/
theorem runScript_keeps_foldInv (cs : List Instr) : ∀ (bs : List Byte) (s t : State), s.FoldInv bs →
    runScript cs s = .next t → t.FoldInv (bytesSinceStart bs cs) := by
  induction cs with
  | nil => intro bs s t hs h; cases h; exact hs
  | cons c cs ih =>
    intro bs s t hs h
    obtain ⟨u, hu, ht⟩ := runScript_cons_next c cs s t h
    rw [bytesSinceStart_cons]
    exact ih _ u t (exec_keeps_foldInv bs c s u hs hu) ht

/-- Settles O55, by the kind of host event that the step takes. -/
theorem stepKeepsAccumulatorFold : Obligations.StepKeepsAccumulatorFold := by
  intro bs s t hs h
  refine ⟨fun hi => ?_, fun rest hi => ?_, fun w rest i hi hd => ?_⟩
  · rw [step_of_idle s hi] at h
    cases h
    exact hs
  · rw [step_of_hardwareReset s rest hi] at h
    cases h
    exact State.foldInv_of_no_engine _ _ rfl
  · rw [step_of_command s w rest i hi hd] at h
    exact exec_keeps_foldInv bs i { s with input := rest } t hs h

/-- Settles O32: a state without an engine has the fold property for no byte, and the script keeps it. -/
theorem accumulatorIsFoldSinceStart : Obligations.AccumulatorIsFoldSinceStart := fun cs s t hs h =>
  runScript_keeps_foldInv cs [] s t (s.foldInv_of_no_engine [] hs) h

end Sys2Proof.Machine
end

section
/-!
PROOFS. Two runs that differ in nothing visible go on or stop alike (10_state.md R34, R35, 70_reset_and_hazards.md R126,
R128). The relation is `State.sameVisible`; what makes it a simulation is that an engine always has a table (R28 (a)), since
`UPDATE` reads `TABLE` and tests `EVALID` alone.
-/

namespace Sys2Proof.Machine

/-- Outcomes that agree both go on, in states that differ in nothing visible, or are both refused for one reason. -/
theorem outcomesAgree_cases (o o' : Host.Outcome State Fault Refusal) (h : outcomesAgree o o') :
    (∃ s t, o = .next s ∧ o' = .next t ∧ s.sameVisible t) ∨ (∃ r, o = .refused r ∧ o' = .refused r) := by
  cases o with
  | next s =>
    cases o' with
    | next t => exact .inl ⟨s, t, rfl, rfl, h⟩
    | fault r => exact nomatch r
    | refused r => exact h.elim
  | fault r => exact nomatch r
  | refused r =>
    cases o' with
    | next t => exact h.elim
    | fault r => exact nomatch r
    | refused r' => exact .inr ⟨r, rfl, congrArg _ (Eq.symm h)⟩

theorem State.sameVisible_respond (s t : State) (r : Response) (h : s.sameVisible t) :
    (s.respond r).sameVisible (t.respond r) := by
  obtain ⟨htv, hev, htable, hengine, hin, hresp⟩ := h
  exact ⟨htv, hev, htable, hengine, hin, congrArg (· ++ [r]) hresp⟩

theorem State.sameVisible_setAcc (s t : State) (a : Word) (h : s.sameVisible t) :
    (s.setAcc a).sameVisible (t.setAcc a) := by
  obtain ⟨htv, hev, htable, hengine, hin, hresp⟩ := h
  exact ⟨htv, hev, htable, fun he => (hengine he).imp_right fun _ => rfl, hin, hresp⟩

theorem State.sameVisible_setInput (s t : State) (rest : List HostEvent) (h : s.sameVisible t) :
    State.sameVisible { s with input := rest } { t with input := rest } := by
  obtain ⟨htv, hev, htable, hengine, -, hresp⟩ := h
  exact ⟨htv, hev, htable, hengine, rfl, hresp⟩

/-- Both valid bits are 0 after a hardware reset, so the free values it leaves are hidden. -/
theorem State.sameVisible_hardwareReset (s t : State) (h : s.sameVisible t) :
    s.hardwareReset.sameVisible t.hardwareReset := by
  obtain ⟨-, -, -, -, hin, hresp⟩ := h
  exact ⟨rfl, rfl, nofun, nofun, hin, hresp⟩

/-- `TBUILD` writes all that `TVALID` shows and hides `SEED` and `ACC`: only the ports are left of what came before. -/
theorem exec_tbuild_agrees (p : Word) (s t : State) (hin : s.input = t.input) (hresp : s.responses = t.responses) :
    outcomesAgree (exec (.tbuild p) s) (exec (.tbuild p) t) :=
  ⟨rfl, rfl, fun _ => ⟨rfl, rfl⟩, nofun, hin, congrArg (· ++ [Response.ack]) hresp⟩

/-- `NEW` writes all six components of the block: only the ports are left of what came before (R35). -/
theorem exec_new_agrees (p a : Word) (s t : State) (hin : s.input = t.input) (hresp : s.responses = t.responses) :
    outcomesAgree (exec (.new p a) s) (exec (.new p a) t) :=
  ⟨rfl, rfl, fun _ => ⟨rfl, rfl⟩, fun _ => ⟨rfl, rfl⟩, hin, congrArg (· ++ [Response.ack]) hresp⟩

/-- Commands that need an engine agree when what they do with one does. -/
theorem State.withEngine_agrees (s t u v : State) (he : s.evalid = t.evalid) (h : s.evalid = true → u.sameVisible v) :
    outcomesAgree (s.withEngine u) (t.withEngine v) := by
  unfold State.withEngine
  rw [← he]
  cases hs : s.evalid with
  | false => rfl
  | true => exact h hs

/-- Commands that need a table agree when what they do with one does. -/
theorem State.withTable_agrees (s t u v : State) (ht : s.tvalid = t.tvalid) (h : s.tvalid = true → u.sameVisible v) :
    outcomesAgree (s.withTable u) (t.withTable v) := by
  unfold State.withTable
  rw [← ht]
  cases hs : s.tvalid with
  | false => rfl
  | true => exact h hs

/-- A command reads only what is visible: its precondition shows the components it reads. -/
theorem exec_agrees (i : Instr) (s t : State) (hs : s.evalid = true → s.tvalid = true) (h : s.sameVisible t) :
    outcomesAgree (exec i s) (exec i t) := by
  have ⟨htv, hev, htable, hengine, hin, hresp⟩ := h
  cases i with
  | tbuild p => exact exec_tbuild_agrees p s t hin hresp
  | new p a => exact exec_new_agrees p a s t hin hresp
  | reset =>
    refine s.withEngine_agrees t _ _ hev fun he => ?_
    obtain ⟨hseed, -⟩ := hengine he
    rw [hseed]
    exact State.sameVisible_respond _ _ _ (s.sameVisible_setAcc t _ h)
  | update b =>
    refine s.withEngine_agrees t _ _ hev fun he => ?_
    obtain ⟨-, hcells⟩ := htable (hs he)
    obtain ⟨-, hacc⟩ := hengine he
    rw [hcells, hacc]
    exact State.sameVisible_respond _ _ _ (s.sameVisible_setAcc t _ h)
  | finalize =>
    refine s.withEngine_agrees t _ _ hev fun he => ?_
    obtain ⟨-, hacc⟩ := hengine he
    rw [hacc]
    exact s.sameVisible_respond t _ h
  | finalize32 =>
    refine s.withEngine_agrees t _ _ hev fun he => ?_
    obtain ⟨-, hacc⟩ := hengine he
    rw [hacc]
    exact s.sameVisible_respond t _ h
  | tread b =>
    refine s.withTable_agrees t _ _ htv fun hv => ?_
    obtain ⟨-, hcells⟩ := htable hv
    rw [hcells]
    exact s.sameVisible_respond t _ h

/-- The step takes the same event off both inputs, and the event keeps the difference invisible. -/
theorem step_agrees (s t : State) (hs : s.evalid = true → s.tvalid = true) (h : s.sameVisible t) :
    outcomesAgree (step s) (step t) := by
  have ⟨_, _, _, _, hin, _⟩ := h
  cases hi : s.input with
  | nil =>
    rw [step_of_idle s hi, step_of_idle t (hin ▸ hi)]
    exact h
  | cons e rest =>
    have hrest := s.sameVisible_setInput t rest h
    cases e with
    | hardwareReset =>
      rw [step_of_hardwareReset s rest hi, step_of_hardwareReset t rest (hin ▸ hi)]
      exact State.sameVisible_hardwareReset _ _ hrest
    | command w =>
      cases hd : decode w with
      | reserved why =>
        rw [step_of_reserved s w rest why hi hd, step_of_reserved t w rest why (hin ▸ hi) hd]
        rfl
      | command i =>
        rw [step_of_command s w rest i hi hd, step_of_command t w rest i (hin ▸ hi) hd]
        exact exec_agrees i _ _ hs hrest

/-- The simulation along a run; the invariant of one side is enough. -/
theorem run_agrees (n : Nat) : ∀ s t : State, s.Inv → s.sameVisible t →
    outcomesAgree (Host.Core.run Sys2Proof.core n s) (Host.Core.run Sys2Proof.core n t) := by
  induction n with
  | zero => intro s t _ h; exact h
  | succ n ih =>
    intro s t hs h
    have ⟨_, hlive, _⟩ := hs
    obtain ⟨s', t', hs', ht', h'⟩ | ⟨r, hs', ht'⟩ := outcomesAgree_cases _ _ (step_agrees s t hlive h)
    · rw [run_succ_of_next n s s' hs', run_succ_of_next n t t' ht']
      exact ih s' t' (step_keeps_inv s s' hs hs') h'
    · rw [run_succ_of_refused n s r hs', run_succ_of_refused n t r ht']
      rfl

/-- The simulation along a script; the invariant of one side is enough. -/
theorem runScript_agrees (cs : List Instr) : ∀ s t : State, s.Inv → s.sameVisible t →
    outcomesAgree (runScript cs s) (runScript cs t) := by
  induction cs with
  | nil => intro s t _ h; exact h
  | cons c cs ih =>
    intro s t hs h
    have ⟨_, hlive, _⟩ := hs
    obtain ⟨s', t', hs', ht', h'⟩ | ⟨r, hs', ht'⟩ := outcomesAgree_cases _ _ (exec_agrees c s t hlive h)
    · rw [runScript_cons_of_next c cs s s' hs', runScript_cons_of_next c cs t t' ht']
      exact ih s' t' (exec_keeps_inv c s s' hs hs') h'
    · rw [runScript_cons_of_refused c cs s r hs', runScript_cons_of_refused c cs t r ht']
      rfl

/-- Settles O34, by the simulation `State.sameVisible` along the run. -/
theorem unspecifiedValuesAreNotObservable : Obligations.UnspecifiedValuesAreNotObservable :=
  fun n s t hs _ h => run_agrees n s t hs h

/-- Settles O35: after `NEW` the two states meet the invariant and differ in nothing visible, so the rest agrees. -/
theorem newForgetsThePast : Obligations.NewForgetsThePast := fun p a cs s t hin hresp =>
  runScript_agrees cs _ _ (exec_new_establishes_inv p a s _ rfl) (exec_new_agrees p a s t hin hresp)

end Sys2Proof.Machine
end

section
/-!
PROOFS. What a command leaves of the block (20_memory.md R44): the commands that read change nothing of it, the commands
that build or restart are idempotent on it, and `UPDATE` is not. And which command a step runs (30_encoding.md R57).
-/

namespace Sys2Proof.Machine

/-- Settles O5. That what the host presents is an input list is the model's own form (assumption 3). -/
theorem stepRunsDecodedCommand : Obligations.StepRunsDecodedCommand := step_of_command

/-- A command that reads and completes does nothing but respond (R70, R95, R96). -/
theorem exec_reading_eq_respond (i : Instr) (s t : State) (hi : i = .finalize ∨ i = .finalize32 ∨ ∃ b, i = .tread b)
    (h : exec i s = .next t) : ∃ r, t = s.respond r := by
  obtain rfl | rfl | ⟨b, rfl⟩ := hi
  · obtain ⟨-, ht⟩ := (s.withEngine_next_iff _ _).mp h
    exact ⟨_, ht⟩
  · obtain ⟨-, ht⟩ := (s.withEngine_next_iff _ _).mp h
    exact ⟨_, ht⟩
  · obtain ⟨-, ht⟩ := (s.withTable_next_iff _ _).mp h
    exact ⟨_, ht⟩

/-- Settles O25: a response is all that such a command adds. -/
theorem readingCommandsFrame : Obligations.ReadingCommandsFrame := by
  intro i s t hi h
  obtain ⟨r, rfl⟩ := exec_reading_eq_respond i s t hi h
  simp

/-- With an engine `RESET` completes (R78). -/
theorem exec_reset_of_engine (s : State) (he : s.evalid = true) :
    exec .reset s = .next ((s.setAcc s.seed).respond .ack) :=
  (s.withEngine_next_iff _ _).mpr ⟨he, rfl⟩

/-- With an engine `UPDATE` completes (R85). -/
theorem exec_update_of_engine (b : Byte) (s : State) (he : s.evalid = true) :
    exec (.update b) s = .next ((s.setAcc (fold1 s.table s.acc b)).respond .ack) :=
  (s.withEngine_next_iff _ _).mpr ⟨he, rfl⟩

/-- `TBUILD` writes `POLY`, `TABLE` and both valid bits from its operand alone and leaves `SEED` and `ACC` (R69). -/
theorem exec_tbuild_again (p : Word) (s t : State) (h : exec (.tbuild p) s = .next t) :
    ∃ u, exec (.tbuild p) t = .next u ∧ t.sameBlock u := by
  cases h
  exact ⟨_, rfl, rfl, rfl, rfl, rfl, rfl, rfl⟩

/-- `NEW` writes all six components from its operands alone (R76). -/
theorem exec_new_again (p a : Word) (s t : State) (h : exec (.new p a) s = .next t) :
    ∃ u, exec (.new p a) t = .next u ∧ t.sameBlock u := by
  cases h
  exact ⟨_, rfl, rfl, rfl, rfl, rfl, rfl, rfl⟩

/-- `RESET` leaves `ACC` at `SEED`, which it does not write, so a second one finds `ACC` there already (R78). -/
theorem exec_reset_again (s t : State) (h : exec .reset s = .next t) :
    ∃ u, exec .reset t = .next u ∧ t.sameBlock u := by
  obtain ⟨he, rfl⟩ := (s.withEngine_next_iff _ _).mp h
  exact ⟨_, exec_reset_of_engine _ he, rfl, rfl, rfl, rfl, rfl, rfl⟩

/-- On the default table the byte 1 folded from 0 gives 0x77073096, and folded from there another value. -/
theorem fold1_defaultTable_twice_ne_once :
    fold1 (buildTable Config.defaultPoly) 0#32 1#8
      ≠ fold1 (buildTable Config.defaultPoly) (fold1 (buildTable Config.defaultPoly) 0#32 1#8) 1#8 := by
  simp only [fold1, entryAt_buildTable]
  decide

/-- Settles O29: the three commands by what each writes, and the engine of `NEW` with the default polynomial and the seed 0
for `UPDATE`. -/
theorem rebuildingTwiceIsOnce : Obligations.RebuildingTwiceIsOnce := by
  refine ⟨?_, 1#8, (State.reset.loadTable Config.defaultPoly).startEngine 0#32, _, _, exec_update_of_engine _ _ rfl,
    exec_update_of_engine _ _ rfl, fun hsame => ?_⟩
  · rintro i s t (⟨p, rfl⟩ | ⟨p, a, rfl⟩ | rfl) h
    · exact exec_tbuild_again p s t h
    · exact exec_new_again p a s t h
    · exact exec_reset_again s t h
  · obtain ⟨-, -, -, -, hacc, -⟩ := hsame
    exact fold1_defaultTable_twice_ne_once hacc

end Sys2Proof.Machine
end

section
/-!
PROOFS. What the decoder makes of a word, an equation per opcode (30_encoding.md R57), and what follows: the encoder is its
inverse (R58), and the words whose format check fails are those of R59.
-/

namespace Sys2Proof

theorem decode_of_op_tbuild (w : CmdWord) (ho : opField w = 0x01#8) :
    decode w = if bField w = 0#32 then .command (.tbuild (aField w)) else .reserved .formatP := by
  simp [decode, ho]

theorem decode_of_op_new (w : CmdWord) (ho : opField w = 0x02#8) :
    decode w = .command (.new (aField w) (bField w)) := by
  simp [decode, ho]

theorem decode_of_op_reset (w : CmdWord) (ho : opField w = 0x03#8) :
    decode w = if aField w = 0#32 ∧ bField w = 0#32 then .command .reset else .reserved .formatN := by
  simp [decode, ho]

theorem decode_of_op_update (w : CmdWord) (ho : opField w = 0x04#8) :
    decode w = if aField w = 0#32 ∧ bHigh (bField w) = 0#24 then .command (.update (imm8Of (bField w)))
      else .reserved .formatI8 := by
  simp [decode, ho]

theorem decode_of_op_finalize (w : CmdWord) (ho : opField w = 0x05#8) :
    decode w = if aField w = 0#32 ∧ bField w = 0#32 then .command .finalize else .reserved .formatN := by
  simp [decode, ho]

theorem decode_of_op_finalize32 (w : CmdWord) (ho : opField w = 0x06#8) :
    decode w = if aField w = 0#32 ∧ bField w = 0#32 then .command .finalize32 else .reserved .formatN := by
  simp [decode, ho]

theorem decode_of_op_tread (w : CmdWord) (ho : opField w = 0x07#8) :
    decode w = if aField w = 0#32 ∧ bHigh (bField w) = 0#24 then .command (.tread (imm8Of (bField w)))
      else .reserved .formatI8 := by
  simp [decode, ho]

/-- R57's last line: any other opcode. -/
theorem decode_of_op_unassigned (w : CmdWord) (ho : (opField w).toNat < 1 ∨ 7 < (opField w).toNat) :
    decode w = .reserved .unassignedOpcode := by
  have hne : ∀ n, 1 ≤ n → n ≤ 7 → opField w ≠ BitVec.ofNat 8 n := by
    intro n h1 h7 h
    rw [h, BitVec.toNat_ofNat] at ho
    omega
  simp [decode, hne]

/-- The opcodes of the seven rows of R55, and the rest. -/
theorem opcode_cases (op : BitVec 8) :
    op = 0x01#8 ∨ op = 0x02#8 ∨ op = 0x03#8 ∨ op = 0x04#8 ∨ op = 0x05#8 ∨ op = 0x06#8 ∨ op = 0x07#8
      ∨ op.toNat < 1 ∨ 7 < op.toNat := by
  bv_omega

/-- A field check that lets a command through was passed. -/
theorem checked_eq_command_iff (P : Prop) [Decidable P] (c i : Instr) (why : Reserved) :
    (if P then Decoded.command i else .reserved why) = .command c ↔ P ∧ i = c := by
  split <;> simp [*]

/-- A field check reserves a word exactly when it fails. -/
theorem exists_checked_eq_reserved_iff (P : Prop) [Decidable P] (i : Instr) (why : Reserved) :
    (∃ r, (if P then Decoded.command i else .reserved why) = .reserved r) ↔ ¬ P := by
  split <;> simp [*]

/-- A word is told by its three fields. -/
theorem cmdWord_eq_of_fields (w : CmdWord) (op : BitVec 8) (a b : Word) (ho : opField w = op) (ha : aField w = a)
    (hb : bField w = b) : cmdWord op a b = w := by
  subst ho ha hb
  exact cmdWord_fields w

theorem decode_encode (c : Instr) : decode (encode c) = .command c := by
  cases c with
  | tbuild p => simp [encode, decode_of_op_tbuild]
  | new p s => simp [encode, decode_of_op_new]
  | reset => simp [encode, decode_of_op_reset]
  | update i => simp [encode, decode_of_op_update]
  | finalize => simp [encode, decode_of_op_finalize]
  | finalize32 => simp [encode, decode_of_op_finalize32]
  | tread i => simp [encode, decode_of_op_tread]

/-- The fields that passed the decoder's checks are those the encoder writes. -/
theorem encode_of_decode (w : CmdWord) (c : Instr) (h : decode w = .command c) : encode c = w := by
  obtain ho | ho | ho | ho | ho | ho | ho | ho := opcode_cases (opField w)
  · rw [decode_of_op_tbuild w ho, checked_eq_command_iff] at h
    obtain ⟨hb, rfl⟩ := h
    exact cmdWord_eq_of_fields w _ _ _ ho rfl hb
  · rw [decode_of_op_new w ho] at h
    cases h
    exact cmdWord_eq_of_fields w _ _ _ ho rfl rfl
  · rw [decode_of_op_reset w ho, checked_eq_command_iff] at h
    obtain ⟨⟨ha, hb⟩, rfl⟩ := h
    exact cmdWord_eq_of_fields w _ _ _ ho ha hb
  · rw [decode_of_op_update w ho, checked_eq_command_iff] at h
    obtain ⟨⟨ha, hb⟩, rfl⟩ := h
    exact cmdWord_eq_of_fields w _ _ _ ho ha (zext32_imm8Of _ hb).symm
  · rw [decode_of_op_finalize w ho, checked_eq_command_iff] at h
    obtain ⟨⟨ha, hb⟩, rfl⟩ := h
    exact cmdWord_eq_of_fields w _ _ _ ho ha hb
  · rw [decode_of_op_finalize32 w ho, checked_eq_command_iff] at h
    obtain ⟨⟨ha, hb⟩, rfl⟩ := h
    exact cmdWord_eq_of_fields w _ _ _ ho ha hb
  · rw [decode_of_op_tread w ho, checked_eq_command_iff] at h
    obtain ⟨⟨ha, hb⟩, rfl⟩ := h
    exact cmdWord_eq_of_fields w _ _ _ ho ha (zext32_imm8Of _ hb).symm
  · rw [decode_of_op_unassigned w ho] at h
    cases h

/-- Settles O1: R58's encodings are the encoder's own equations, and it and the decoder invert each other. -/
theorem encodeAndDecodeAreInverse : Obligations.EncodeAndDecodeAreInverse :=
  ⟨⟨fun _ => rfl, fun _ _ => rfl, rfl, fun _ => rfl, rfl, rfl, fun _ => rfl⟩, decode_encode, encode_of_decode⟩

/-- Settles O4, by decoding each word. -/
theorem specWordsDecode : Obligations.SpecWordsDecode := by
  unfold Obligations.SpecWordsDecode
  decide

/-- Settles O3: the words of each opcode that fail its format's check, and the step's refusal. -/
theorem reservedWordsAreRefused : Obligations.ReservedWordsAreRefused := by
  refine ⟨fun w => ?_, Machine.step_of_reserved⟩
  obtain ho | ho | ho | ho | ho | ho | ho | ho := opcode_cases (opField w)
  · rw [decode_of_op_tbuild w ho, exists_checked_eq_reserved_iff]
    simp [ho]
  · rw [decode_of_op_new w ho]
    simp [ho]
  · rw [decode_of_op_reset w ho, exists_checked_eq_reserved_iff, not_and_or]
    simp [ho]
  · rw [decode_of_op_update w ho, exists_checked_eq_reserved_iff, not_and_or]
    simp [ho]
  · rw [decode_of_op_finalize w ho, exists_checked_eq_reserved_iff, not_and_or]
    simp [ho]
  · rw [decode_of_op_finalize32 w ho, exists_checked_eq_reserved_iff, not_and_or]
    simp [ho]
  · rw [decode_of_op_tread w ho, exists_checked_eq_reserved_iff, not_and_or]
    simp [ho]
  · have hcase : opField w = 0x00#8 ∨ 0x08 ≤ (opField w).toNat := by bv_omega
    exact iff_of_true ⟨_, decode_of_op_unassigned w ho⟩ (.inl hcase)

end Sys2Proof
end

section
/-!
PROOFS. The opcode map's mask and match (30_encoding.md R55) read field by field, per format (R51 to R54), and that they
check what the decoder checks.
-/

namespace Sys2Proof

/-- A word is told from another by its three fields. -/
theorem cmdWord_inj (op op' : BitVec 8) (a a' b b' : Word) :
    cmdWord op a b = cmdWord op' a' b' ↔ op = op' ∧ a = a' ∧ b = b' := by
  constructor
  · intro h
    exact ⟨by simpa using congrArg opField h, by simpa using congrArg aField h, by simpa using congrArg bField h⟩
  · rintro ⟨rfl, rfl, rfl⟩
    rfl

/-- A mask that keeps the whole opcode tests the opcode and what it keeps of the operands. -/
theorem and_mask_eq_iff (w : CmdWord) (op : BitVec 8) (ma mb : Word) :
    w &&& cmdWord 0xFF#8 ma mb = cmdWord op 0#32 0#32
      ↔ opField w = op ∧ aField w &&& ma = 0#32 ∧ bField w &&& mb = 0#32 := by
  have hall : opField w &&& 0xFF#8 = opField w := BitVec.and_allOnes
  rw [← hall, ← cmdWord_inj, ← cmdWord_and, cmdWord_fields]

theorem word_and_ones (v : Word) : v &&& 0xFFFFFFFF#32 = v := BitVec.and_allOnes

theorem and_maskN_eq_iff (w : CmdWord) (op : BitVec 8) :
    w &&& maskN = cmdWord op 0#32 0#32 ↔ opField w = op ∧ aField w = 0#32 ∧ bField w = 0#32 := by
  rw [maskN_fields, and_mask_eq_iff, word_and_ones, word_and_ones]

theorem and_maskP_eq_iff (w : CmdWord) (op : BitVec 8) :
    w &&& maskP = cmdWord op 0#32 0#32 ↔ opField w = op ∧ bField w = 0#32 := by
  rw [maskP_fields, and_mask_eq_iff, word_and_ones, BitVec.and_zero, eq_self, true_and]

theorem and_maskPS_eq_iff (w : CmdWord) (op : BitVec 8) :
    w &&& maskPS = cmdWord op 0#32 0#32 ↔ opField w = op := by
  rw [maskPS_fields, and_mask_eq_iff, BitVec.and_zero, BitVec.and_zero, eq_self, and_true, and_true]

/-- `b[31:8]` is 0 exactly when the mask of format I8 leaves nothing of `b`. -/
theorem and_mask_eq_zero_iff (b : Word) : b &&& 0xFFFFFF00#32 = 0#32 ↔ bHigh b = 0#24 := by
  constructor
  · intro h
    have hkeep : bHigh (b &&& 0xFFFFFF00#32) = bHigh b :=
      BitVec.extractLsb'_and.trans BitVec.and_allOnes
    rw [← hkeep, h]
    rfl
  · intro h
    rw [← zext32_imm8Of b h, zext32_and_mask]

theorem and_maskI8_eq_iff (w : CmdWord) (op : BitVec 8) :
    w &&& maskI8 = cmdWord op 0#32 0#32 ↔ opField w = op ∧ aField w = 0#32 ∧ bHigh (bField w) = 0#24 := by
  rw [maskI8_fields, and_mask_eq_iff, word_and_ones, and_mask_eq_zero_iff]

/-- A word that a row accepts passes the decoder's checks for the row's opcode. -/
theorem decode_of_accepts (r : OpcodeRow) (hr : r ∈ opcodeMap) (w : CmdWord) (h : w &&& r.mask = r.pattern) :
    ∃ i, decode w = .command i ∧ i.mnemonic = r.mnemonic := by
  simp only [opcodeMap, List.mem_cons, List.not_mem_nil, or_false] at hr
  obtain rfl | rfl | rfl | rfl | rfl | rfl | rfl := hr
  · obtain ⟨ho, hb⟩ := (and_maskP_eq_iff w 0x01#8).mp h
    exact ⟨_, (decode_of_op_tbuild w ho).trans (if_pos hb), rfl⟩
  · have ho := (and_maskPS_eq_iff w 0x02#8).mp h
    exact ⟨_, decode_of_op_new w ho, rfl⟩
  · obtain ⟨ho, hf⟩ := (and_maskN_eq_iff w 0x03#8).mp h
    exact ⟨_, (decode_of_op_reset w ho).trans (if_pos hf), rfl⟩
  · obtain ⟨ho, hf⟩ := (and_maskI8_eq_iff w 0x04#8).mp h
    exact ⟨_, (decode_of_op_update w ho).trans (if_pos hf), rfl⟩
  · obtain ⟨ho, hf⟩ := (and_maskN_eq_iff w 0x05#8).mp h
    exact ⟨_, (decode_of_op_finalize w ho).trans (if_pos hf), rfl⟩
  · obtain ⟨ho, hf⟩ := (and_maskN_eq_iff w 0x06#8).mp h
    exact ⟨_, (decode_of_op_finalize32 w ho).trans (if_pos hf), rfl⟩
  · obtain ⟨ho, hf⟩ := (and_maskI8_eq_iff w 0x07#8).mp h
    exact ⟨_, (decode_of_op_tread w ho).trans (if_pos hf), rfl⟩

/-- No two rows bear the same mnemonic. -/
theorem opcodeMap_row_of_mnemonic : ∀ r ∈ opcodeMap, ∀ q ∈ opcodeMap, q.mnemonic = r.mnemonic → q = r := by
  decide

/-- The encoding of a command is accepted by the row of its mnemonic. -/
theorem encode_matchesRow (i : Instr) : Laws.MatchesRow.Statement i := by
  cases i with
  | tbuild p => exact Laws.MatchesRow.tbuild p
  | new p s => exact Laws.MatchesRow.new p s
  | reset => exact Laws.MatchesRow.reset
  | update i => exact Laws.MatchesRow.update i
  | finalize => exact Laws.MatchesRow.finalize
  | finalize32 => exact Laws.MatchesRow.finalize32
  | tread i => exact Laws.MatchesRow.tread i

/-- A word that decodes is accepted by the row of its command's mnemonic. -/
theorem accepts_of_decode (r : OpcodeRow) (hr : r ∈ opcodeMap) (w : CmdWord) (i : Instr) (hd : decode w = .command i)
    (hm : i.mnemonic = r.mnemonic) : w &&& r.mask = r.pattern := by
  obtain ⟨q, hq, hqm, hacc, -⟩ := encode_matchesRow i
  rw [encode_of_decode w i hd, opcodeMap_row_of_mnemonic r hr q hq (hqm.trans hm)] at hacc
  exact eq_of_beq hacc

/-- Settles O2: a row's mask and the decoder's field tests check the same. -/
theorem decodeFollowsOpcodeMap : Obligations.DecodeFollowsOpcodeMap :=
  ⟨rfl, fun r hr w => ⟨decode_of_accepts r hr w, fun ⟨i, hd, hm⟩ => accepts_of_decode r hr w i hd hm⟩,
    decode_of_op_unassigned⟩

end Sys2Proof
end

section
/-!
PROOFS. Commands presented as their words (30_encoding.md R65), and the one response of each (R61, R62).
-/

namespace Sys2Proof.Machine

/-- What the host has yet to present is no matter to a command that completes. -/
theorem exec_setInput_of_next (i : Instr) (s t : State) (rest : List HostEvent) (h : exec i s = .next t) :
    exec i { s with input := rest } = .next { t with input := rest } := by
  rw [exec_of_input, h]

/-- What the host has yet to present is no matter to a command that is refused. -/
theorem exec_setInput_of_refused (i : Instr) (s : State) (r : Refusal) (rest : List HostEvent)
    (h : exec i s = .refused r) : exec i { s with input := rest } = .refused r := by
  rw [exec_of_input, h]

/-- The step that takes an encoded command off the input runs that command. -/
theorem step_of_encoded (c : Instr) (s : State) (rest : List HostEvent) :
    step { s with input := .command (encode c) :: rest } = exec c { s with input := rest } :=
  step_of_command _ _ rest c rfl (decode_encode c)

/-- Settles O6, by induction on the script. That what the host presents is an input list is the model's own form
(assumption 3). -/
theorem stepsAreLeftFoldOfScript : Obligations.StepsAreLeftFoldOfScript := by
  intro cs rest
  induction cs with
  | nil => intro s; rfl
  | cons c cs ih =>
    intro s
    have hstep : step { s with input := presented (c :: cs) ++ rest } = exec c { s with input := presented cs ++ rest } :=
      step_of_encoded c s (presented cs ++ rest)
    cases hc : exec c s with
    | next t =>
      rw [runScript_cons_of_next c cs _ _ (exec_setInput_of_next c s t rest hc), ← ih t]
      exact run_succ_of_next _ _ _ (hstep.trans (exec_setInput_of_next c s t _ hc))
    | fault r => exact nomatch r
    | refused r =>
      rw [runScript_cons_of_refused c cs _ r (exec_setInput_of_refused c s r rest hc)]
      exact run_succ_of_refused _ _ r (hstep.trans (exec_setInput_of_refused c s r _ hc))

/-- Settles O22, from the state in which each command completes. -/
theorem responseOfEachCommand : Obligations.ResponseOfEachCommand := by
  intro i s t h
  obtain ⟨p, rfl, rfl⟩ | ⟨p, a, rfl, rfl⟩ | ⟨rfl, -, rfl⟩ | ⟨b, rfl, -, rfl⟩ | ⟨rfl, -, rfl⟩ | ⟨rfl, -, rfl⟩
    | ⟨b, rfl, -, rfl⟩ := exec_next_cases i s t h
  all_goals rfl

/-- Settles O10, by the kind of host event that the step takes. -/
theorem responsesComeOnlyFromCommands : Obligations.ResponsesComeOnlyFromCommands := by
  intro s t h
  obtain ⟨hi, rfl⟩ | ⟨rest, hi, rfl⟩ | ⟨w, rest, i, hi, hd, he⟩ := step_next_cases s t h
  · exact .inl ⟨rfl, .inl hi⟩
  · exact .inl ⟨rfl, .inr ⟨rest, hi⟩⟩
  · exact .inr ⟨w, rest, i, _, hi, hd, responseOfEachCommand i { s with input := rest } t he⟩

end Sys2Proof.Machine
end

section
/-!
PROOFS. Script lines (30_encoding.md R64; 42_engine_update.md R86, R87; 44_oneshot_compute.md R104 to R106): the range check
of each form, and the commands behind it.
-/

namespace Sys2Proof.Machine

theorem fitsWord_iff (n : Nat) : fitsWord n = true ↔ n < 2 ^ 32 := decide_eq_true_iff

theorem fitsByte_iff (n : Nat) : fitsByte n = true ↔ n < 2 ^ 8 := decide_eq_true_iff

theorem all_fitsByte_iff (bs : List Nat) : bs.all fitsByte = true ↔ ∀ n ∈ bs, n < 2 ^ 8 := by
  simp only [List.all_eq_true, fitsByte_iff]

/-- A line assembles to its commands exactly under the range check of its form. -/
theorem assemble_eq_ite (l : ScriptLine) (P : Prop) [Decidable P] (h : l.wellFormed = true ↔ P) :
    assemble l = if P then some l.expand else none := by
  simp only [assemble, h]

/-- `UPDATES` of written numbers is one `UPDATE` a number. -/
theorem updates_bytesOf (ns : List Nat) : updates (bytesOf ns) = ns.map fun n => .update (BitVec.ofNat 8 n) :=
  List.map_map

theorem ScriptLine.new_wellFormed_iff (p a : Nat) :
    (ScriptLine.new p a).wellFormed = true ↔ p < 2 ^ 32 ∧ a < 2 ^ 32 := by
  simp only [ScriptLine.wellFormed, Bool.and_eq_true, fitsWord_iff]

theorem ScriptLine.updatebuf_wellFormed_iff (buf : List Nat) (start length : Nat) :
    (ScriptLine.updatebuf buf start length).wellFormed = true
      ↔ (∀ n ∈ buf, n < 2 ^ 8) ∧ start + length ≤ buf.length := by
  simp only [ScriptLine.wellFormed, Bool.and_eq_true, all_fitsByte_iff, decide_eq_true_eq]

theorem ScriptLine.compute2_wellFormed_iff (a : Nat) (bs : List Nat) :
    (ScriptLine.compute2 a bs).wellFormed = true ↔ a < 2 ^ 32 ∧ ∀ n ∈ bs, n < 2 ^ 8 := by
  simp only [ScriptLine.wellFormed, Bool.and_eq_true, fitsWord_iff, all_fitsByte_iff]

theorem ScriptLine.compute3_wellFormed_iff (p a : Nat) (bs : List Nat) :
    (ScriptLine.compute3 p a bs).wellFormed = true ↔ p < 2 ^ 32 ∧ a < 2 ^ 32 ∧ ∀ n ∈ bs, n < 2 ^ 8 := by
  simp only [ScriptLine.wellFormed, Bool.and_eq_true, fitsWord_iff, all_fitsByte_iff, and_assoc]

/-- Settles O53: the range check and the commands of each form of line. -/
theorem operandRangesAreChecked : Obligations.OperandRangesAreChecked := by
  refine ⟨fun p => ?_, fun p a => ?_, fun b => ?_, fun b => ?_, rfl, rfl, rfl, fun bs => ?_, fun buf start length => ?_,
    fun bs => ?_, fun a bs => ?_, fun p a bs => ?_⟩
  · exact assemble_eq_ite (.tbuild p) _ (fitsWord_iff p)
  · exact assemble_eq_ite (.new p a) _ (ScriptLine.new_wellFormed_iff p a)
  · exact assemble_eq_ite (.update b) _ (fitsByte_iff b)
  · exact assemble_eq_ite (.tread b) _ (fitsByte_iff b)
  · rw [← updates_bytesOf]
    exact assemble_eq_ite (.updates bs) _ (all_fitsByte_iff bs)
  · rw [← updates_bytesOf]
    exact assemble_eq_ite (.updatebuf buf start length) _ (ScriptLine.updatebuf_wellFormed_iff buf start length)
  · exact assemble_eq_ite (.compute1 bs) _ (all_fitsByte_iff bs)
  · exact assemble_eq_ite (.compute2 a bs) _ (ScriptLine.compute2_wellFormed_iff a bs)
  · exact assemble_eq_ite (.compute3 p a bs) _ (ScriptLine.compute3_wellFormed_iff p a bs)

end Sys2Proof.Machine
end

section
/-!
PROOFS. The table builder's function (40_table_builder.md R66 to R68): `round` halves a power of two until the low bit
brings the polynomial in (R72), and is linear over XOR (R73); with polynomial 0 it is the shift alone (R69).
-/

namespace Sys2Proof.Machine

theorem rounds_add (p : Word) (n : Nat) : ∀ (m : Nat) (v : Word), rounds p (m + n) v = rounds p n (rounds p m v) := by
  intro m
  induction m with
  | zero => intro v; rw [Nat.zero_add]; rfl
  | succ m ih => intro v; rw [Nat.succ_add]; exact ih (round p v)

theorem rounds_zero_word (p : Word) (n : Nat) : rounds p n 0#32 = 0#32 := by
  induction n with
  | zero => rfl
  | succ n ih => exact ih

/-- The low bit of 1 shifts out and leaves the polynomial. -/
theorem round_one (p : Word) : round p 1#32 = p := BitVec.zero_xor

/-- The low bit of a higher power of two is 0, so a round halves it. -/
theorem round_twoPow_succ (p : Word) (k : Nat) (hk : k + 1 < 32) :
    round p (BitVec.twoPow 32 (k + 1)) = BitVec.twoPow 32 k := by
  have hlow : (BitVec.twoPow 32 (k + 1)).getLsbD 0 = false := by simp
  have hhalf : BitVec.twoPow 32 (k + 1) >>> 1 = BitVec.twoPow 32 k := by
    apply BitVec.eq_of_getLsbD_eq
    intro j hj
    have hpos : k + 1 = 1 + j ↔ k = j := by omega
    simp [BitVec.getLsbD_twoPow, hk, Nat.lt_of_succ_lt hk, hpos]
  rw [round, hlow, hhalf]
  rfl

/-- After `k + 1` rounds the bit at position `k` has become the polynomial. -/
theorem rounds_twoPow (p : Word) (k : Nat) (hk : k < 32) : rounds p (k + 1) (BitVec.twoPow 32 k) = p := by
  induction k with
  | zero => exact round_one p
  | succ k ih =>
    rw [rounds, round_twoPow_succ p k hk]
    exact ih (Nat.lt_of_succ_lt hk)

theorem zext32_twoPow : ∀ k < 8, zext32 (BitVec.ofNat 8 (2 ^ k)) = BitVec.twoPow 32 k := by decide

theorem entry_zero_index (p : Word) : entry p 0#8 = 0#32 := rounds_zero_word p Config.rounds

/-- Of the 8 rounds of entry `2^k`, `k + 1` are spent until the polynomial appears (R72). -/
theorem entry_twoPow (p : Word) (k : Nat) (hk : k < 8) : entry p (BitVec.ofNat 8 (2 ^ k)) = rounds p (7 - k) p := by
  have hsplit : Config.rounds = (k + 1) + (7 - k) := by unfold Config.rounds; omega
  rw [entry, zext32_twoPow k hk, hsplit, rounds_add, rounds_twoPow p k (by omega)]

/-- Settles O37: the entries at 0 and at the powers of two, and the default polynomial's entry 1 by its eight rounds. -/
theorem tableFixedEntries : Obligations.TableFixedEntries :=
  ⟨entry_zero_index, fun p => entry_twoPow p 7 (by decide), entry_twoPow, by decide, by decide⟩

/-- A round is the shift, and the polynomial where the low bit was set (R66). -/
theorem round_eq_shift_xor (p v : Word) : round p v = (v >>> 1) ^^^ (if v.getLsbD 0 then p else 0#32) := by
  unfold round
  split
  · rfl
  · exact BitVec.xor_zero.symm

/-- What two bits bring in together: `p` twice is nothing. -/
theorem ite_xor_ite (b c : Bool) (p : Word) :
    (if b ^^ c then p else 0#32) = (if b then p else 0#32) ^^^ (if c then p else 0#32) := by
  cases b <;> cases c <;> simp

theorem round_xor (p v w : Word) : round p (v ^^^ w) = round p v ^^^ round p w := by
  simp only [round_eq_shift_xor, BitVec.ushiftRight_xor_distrib, BitVec.getLsbD_xor, ite_xor_ite]
  ac_rfl

theorem rounds_xor (p : Word) (n : Nat) : ∀ v w, rounds p n (v ^^^ w) = rounds p n v ^^^ rounds p n w := by
  induction n with
  | zero => intro v w; rfl
  | succ n ih => intro v w; rw [rounds, round_xor]; exact ih _ _

theorem entry_xor (p : Word) (i j : Byte) : entry p (i ^^^ j) = entry p i ^^^ entry p j := by
  rw [entry, zext32, BitVec.setWidth_xor]
  exact rounds_xor p _ _ _

/-- A byte is the XOR of its set bits. -/
theorem byte_eq_xor_of_bits (i : Byte) :
    (List.range 8).foldl (fun v k => if i.getLsbD k then v ^^^ BitVec.ofNat 8 (2 ^ k) else v) 0#8 = i := by
  revert i; decide

/-- An entry is the XOR of the entries at the set bits of its index: `entry(p, ·)` carried through the index's own sum. -/
theorem entry_eq_xor_of_bits (p : Word) (i : Byte) :
    entry p i = (List.range 8).foldl
      (fun v k => if i.getLsbD k then v ^^^ entry p (BitVec.ofNat 8 (2 ^ k)) else v) 0#32 := by
  conv_lhs => rw [← byte_eq_xor_of_bits i]
  rw [← entry_zero_index p]
  refine (List.foldl_hom (entry p) fun v k => ?_).symm
  split
  · exact (entry_xor p v _).symm
  · rfl

/-- Settles O38, from the linearity of one round. -/
theorem tableIsLinear : Obligations.TableIsLinear := ⟨round_xor, entry_xor, entry_eq_xor_of_bits⟩

theorem round_zeroPoly (v : Word) : round 0#32 v = v >>> 1 := by
  simp [round_eq_shift_xor]

theorem rounds_zeroPoly (n : Nat) : ∀ v, rounds 0#32 n v = v >>> n := by
  induction n with
  | zero => intro v; rfl
  | succ n ih => intro v; rw [rounds, round_zeroPoly, ih, ← BitVec.shiftRight_add, Nat.add_comm]

/-- Eight shifts leave nothing of an 8-bit index (R69). -/
@[simp] theorem entry_zeroPoly (i : Byte) : entry 0#32 i = 0#32 := by
  rw [entry, rounds_zeroPoly]
  apply BitVec.eq_of_getLsbD_eq
  intro j hj
  simp [zext32, Config.rounds]

end Sys2Proof.Machine
end

section
/-!
PROOFS. The table builder's commands (40_table_builder.md R69, R70), and `NEW` where it builds (41_engine_lifecycle.md R76):
what a build leaves, and what `TREAD` reads of it (R74).
-/

namespace Sys2Proof.Machine

/-- `TBUILD` completes in every state (R69). -/
theorem exec_tbuild (p : Word) (s : State) :
    exec (.tbuild p) s = .next (((s.loadTable p).endEngine).respond .ack) := rfl

/-- `NEW` completes in every state (R76). -/
theorem exec_new (p a : Word) (s : State) :
    exec (.new p a) s = .next (((s.loadTable p).startEngine a).respond .ack) := rfl

/-- With a valid table `TREAD` completes (R70). -/
theorem exec_tread_of_table (i : Byte) (s : State) (h : s.tvalid = true) :
    exec (.tread i) s = .next (s.respond (.word (s.table.entryAt i))) :=
  (s.withTable_next_iff _ _).mpr ⟨h, rfl⟩

/-- Without a valid table `TREAD` is refused (R70, R114). -/
theorem exec_tread_of_no_table (i : Byte) (s : State) (h : s.tvalid = false) :
    exec (.tread i) s = .refused .noTable := by
  simp only [exec, execTread, State.withTable, h]

/-- Nothing is stored outside the 256 locations of a built table. -/
theorem buildTable_read_outside (p : Word) (k : Nat) (hk : Config.tableEntries ≤ k) :
    (buildTable p).read k = Memory.unlisted :=
  Memory.read_outside _ (buildTable_wf p) k hk

/-- Settles O12: `TBUILD` field by field, and its table of shifts for polynomial 0. -/
theorem tbuildResult : Obligations.TbuildResult :=
  ⟨fun p s => ⟨_, exec_tbuild p s, rfl, entryAt_buildTable p, rfl, rfl, rfl, rfl, rfl, rfl, rfl, rfl⟩, fun _ => rfl,
    entry_zeroPoly⟩

/-- Settles O19: `TVALID` alone decides, and under the invariant a valid table is the table of `POLY`. -/
theorem treadResult : Obligations.TreadResult := by
  refine ⟨exec_tread_of_table, exec_tread_of_no_table, fun _ => rfl, fun i s ⟨_, _, htable⟩ hv => ?_⟩
  have hentry : s.table.entryAt i = entry s.poly i := by rw [htable hv, entryAt_buildTable]
  rw [exec_tread_of_table i s hv, hentry]
  rfl

/-- `TREAD` after a command that answers `Ack` and leaves the table of `p` responds the entry of `p`. -/
theorem runScript_build_tread (c : Instr) (p : Word) (i : Byte) (s t : State) (hc : exec c s = .next t)
    (hv : t.tvalid = true) (htable : t.table = buildTable p) (hresp : t.responses = s.responses ++ [Response.ack]) :
    ∃ u, runScript [c, .tread i] s = .next u
      ∧ u.responses = s.responses ++ [Response.ack, Response.word (entry p i)] := by
  refine ⟨t.respond (.word (t.table.entryAt i)), ?_, ?_⟩
  · rw [runScript_cons_of_next c _ s t hc, runScript_cons_of_next _ _ t _ (exec_tread_of_table i t hv), runScript_nil]
  · simp [htable, hresp]

/-- Settles O20, for both builds. -/
theorem tableReadsBackItsDefinition : Obligations.TableReadsBackItsDefinition := fun p a i s =>
  ⟨runScript_build_tread _ p i s _ (exec_tbuild p s) rfl rfl rfl,
    runScript_build_tread _ p i s _ (exec_new p a s) rfl rfl rfl⟩

/-- Settles O26: both builds leave the built table, and write nothing of the host's side but their response. -/
theorem buildCommandsFrame : Obligations.BuildCommandsFrame := by
  refine fun p a s t => ⟨fun h => ?_, fun h => ?_⟩
  · cases h
    exact ⟨rfl, rfl, rfl, rfl, rfl, rfl, entryAt_buildTable p, buildTable_read_outside p⟩
  · cases h
    exact ⟨rfl, rfl, rfl, rfl, entryAt_buildTable p, buildTable_read_outside p⟩

end Sys2Proof.Machine
end

section
/-!
PROOFS. The fold over the table of polynomial 0 (40_table_builder.md R69; 44_oneshot_compute.md R106, R110): every entry is
0, so each byte only shifts the accumulator by 8.
-/

namespace Sys2Proof.Machine

theorem fold1_zeroPoly (a : Word) (b : Byte) : fold1 (buildTable 0#32) a b = a >>> 8 := by
  rw [fold1, entryAt_buildTable, entry_zeroPoly, BitVec.xor_zero]

theorem fold_zeroPoly (bs : List Byte) : ∀ a : Word, fold (buildTable 0#32) a bs = a >>> (8 * bs.length) := by
  induction bs with
  | nil => intro a; rfl
  | cons b bs ih =>
    intro a
    rw [fold, fold1_zeroPoly, ih, ← BitVec.shiftRight_add, List.length_cons, Nat.mul_succ, Nat.add_comm]

/-- Four bytes shift the whole seed out. -/
theorem compute_zeroPoly (a : Word) (bs : List Byte) (h : 4 ≤ bs.length) : compute 0#32 a bs = 0xFFFFFFFF#32 := by
  have hout : a >>> (8 * bs.length) = 0#32 := BitVec.ushiftRight_eq_zero (by omega)
  rw [compute, fold_zeroPoly, hout]
  rfl

/-- Settles O43: a shift by 8 for every byte folded, so by 32 or more for four or more. -/
theorem zeroPolynomialOnlyShifts : Obligations.ZeroPolynomialOnlyShifts := ⟨fold1_zeroPoly, compute_zeroPoly⟩

end Sys2Proof.Machine
end

section
/-!
PROOFS. The engine's lifecycle (41_engine_lifecycle.md R76 to R81): what `NEW` and `RESET` leave, which commands a live engine
accepts, and the digest that a second pass over the same bytes repeats.
-/

namespace Sys2Proof.Machine

/-! ## The commands of an engine -/

/-- Without an engine a command that needs one is refused (60_exceptions.md R114). -/
theorem State.withEngine_of_no_engine (s t : State) (h : s.evalid = false) : s.withEngine t = .refused .noEngine := by
  simp only [State.withEngine, h]

/-- With an engine `FINALIZE` completes (R95). -/
theorem exec_finalize_of_engine (s : State) (he : s.evalid = true) :
    exec .finalize s = .next (s.respond (.bytes4 (serBe (digest32 s.acc)))) :=
  (s.withEngine_next_iff _ _).mpr ⟨he, rfl⟩

/-- With an engine `FINALIZE32` completes (R96). -/
theorem exec_finalize32_of_engine (s : State) (he : s.evalid = true) :
    exec .finalize32 s = .next (s.respond (.word (digest32 s.acc))) :=
  (s.withEngine_next_iff _ _).mpr ⟨he, rfl⟩

/-- `RESET` and `UPDATE` write the accumulator and answer `Ack`, nothing else (R78, R85). -/
theorem exec_accumulator_eq_setAcc (i : Instr) (s t : State) (hi : i = .reset ∨ ∃ b, i = .update b)
    (h : exec i s = .next t) : ∃ a, t = (s.setAcc a).respond .ack := by
  obtain rfl | ⟨b, rfl⟩ := hi
  · obtain ⟨-, ht⟩ := (s.withEngine_next_iff _ _).mp h
    exact ⟨_, ht⟩
  · obtain ⟨-, ht⟩ := (s.withEngine_next_iff _ _).mp h
    exact ⟨_, ht⟩

/-- Settles O24: the accumulator and one `Ack` are all that such a command writes. -/
theorem accumulatorCommandsFrame : Obligations.AccumulatorCommandsFrame := by
  intro i s t hi h
  obtain ⟨a, rfl⟩ := exec_accumulator_eq_setAcc i s t hi h
  simp

/-- Settles O13, field by field. -/
theorem newResult : Obligations.NewResult :=
  ⟨fun p a s => ⟨_, exec_new p a s, rfl, rfl, rfl, entryAt_buildTable p, rfl, rfl, rfl, rfl, rfl, rfl, rfl⟩,
    fun _ _ => rfl⟩

/-- Settles O14: both commands load the table of `p` and answer `Ack`, and the three writes cover what `TBUILD` does to the
engine. -/
theorem newIsTbuildThenThreeWrites : Obligations.NewIsTbuildThenThreeWrites :=
  fun p a s => ⟨_, exec_tbuild p s, exec_new p a s⟩

/-- Settles O15: `EVALID` decides, and `NEW` has made `ACC` and `SEED` equal already. -/
theorem resetCommandResult : Obligations.ResetCommandResult := by
  refine ⟨exec_reset_of_engine, fun s he => s.withEngine_of_no_engine _ he, rfl, fun p a s t h => ?_⟩
  cases h
  exact ⟨_, exec_reset_of_engine _ rfl, rfl, rfl, rfl, rfl, rfl, rfl⟩

/-! ## Runs and scripts -/

/-- Settles O7: each of the steps is the idle one (R81). -/
theorem idleStatePersists : Obligations.IdleStatePersists := by
  intro n s hi
  induction n with
  | zero => exact run_zero s
  | succ n ih => exact (run_succ_of_next n s s (step_of_idle s hi)).trans ih

/-- With an engine and its table every command but `TBUILD` completes, responds once, and leaves both (R79). -/
theorem exec_of_live_engine (c : Instr) (s : State) (he : s.evalid = true) (hv : s.tvalid = true)
    (hc : isTbuild c = false) :
    ∃ t r, exec c s = .next t ∧ t.evalid = true ∧ t.tvalid = true ∧ t.responses = s.responses ++ [r] := by
  cases c with
  | tbuild p => cases hc
  | new p a => exact ⟨_, _, exec_new p a s, rfl, rfl, rfl⟩
  | reset => exact ⟨_, _, exec_reset_of_engine s he, he, hv, rfl⟩
  | update b => exact ⟨_, _, exec_update_of_engine b s he, he, hv, rfl⟩
  | finalize => exact ⟨_, _, exec_finalize_of_engine s he, he, hv, rfl⟩
  | finalize32 => exact ⟨_, _, exec_finalize32_of_engine s he, he, hv, rfl⟩
  | tread b => exact ⟨_, _, exec_tread_of_table b s hv, he, hv, rfl⟩

/-- A script without `TBUILD` completes from a live engine, whatever its table, and leaves it live. -/
theorem runScript_of_live_engine (cs : List Instr) : ∀ s : State, s.evalid = true → s.tvalid = true →
    (∀ c ∈ cs, isTbuild c = false) →
    ∃ t, runScript cs s = .next t ∧ t.evalid = true ∧ t.tvalid = true
      ∧ t.responses.length = s.responses.length + cs.length := by
  induction cs with
  | nil => exact fun s he hv _ => ⟨s, rfl, he, hv, rfl⟩
  | cons c cs ih =>
    intro s he hv hcs
    obtain ⟨hc, hrest⟩ := List.forall_mem_cons.mp hcs
    obtain ⟨u, r, hu, hue, huv, hur⟩ := exec_of_live_engine c s he hv hc
    obtain ⟨t, ht, hte, htv, hlen⟩ := ih u hue huv hrest
    refine ⟨t, (runScript_cons_of_next c cs s u hu).trans ht, hte, htv, ?_⟩
    rw [hlen, hur, List.length_append, List.length_singleton, List.length_cons]
    omega

/-- Settles O33: of the invariant only "an engine has a table" is needed. -/
theorem liveEngineAcceptsEveryScript : Obligations.LiveEngineAcceptsEveryScript := by
  intro cs s ⟨_, htable, _⟩ he hcs
  exact runScript_of_live_engine cs s he (htable he) hcs

/-- `UPDATES bs` folds the bytes into the accumulator and answers one `Ack` a byte (42_engine_update.md R86). -/
theorem runScript_updates (bs : List Byte) : ∀ s : State, s.evalid = true →
    runScript (updates bs) s = .next { s with
      acc := fold s.table s.acc bs
      responses := s.responses ++ List.replicate bs.length Response.ack } := by
  induction bs with
  | nil =>
    intro s _
    simp [updates, fold]
  | cons b bs ih =>
    intro s he
    calc runScript (updates (b :: bs)) s
        = runScript (updates bs) ((s.setAcc (fold1 s.table s.acc b)).respond .ack) :=
          runScript_cons_of_next _ _ s _ (exec_update_of_engine b s he)
      _ = .next { s with
            acc := fold s.table (fold1 s.table s.acc b) bs
            responses := (s.responses ++ [Response.ack]) ++ List.replicate bs.length Response.ack } :=
          ih _ he
      _ = _ := by rw [List.append_assoc]; rfl

/-- `UPDATES bs; FINALIZE` with more to follow: one pass over the bytes, and its digest. -/
theorem runScript_updates_finalize (bs : List Byte) (cs : List Instr) (s : State) (he : s.evalid = true) :
    runScript (updates bs ++ .finalize :: cs) s = runScript cs { s with
      acc := fold s.table s.acc bs
      responses := s.responses ++ (List.replicate bs.length Response.ack
        ++ [Response.bytes4 (serBe (digest32 (fold s.table s.acc bs)))]) } := by
  refine (runScript_append_of_next _ _ s _ (runScript_updates bs s he)).trans ?_
  refine (runScript_cons_of_next _ _ _ _ (exec_finalize_of_engine _ (by exact he))).trans ?_
  simp [State.respond]

/-- Settles O47: two passes over the bytes with `RESET` between them, both starting from `ACC = SEED`. -/
theorem resetRepeatsTheDigest : Obligations.ResetRepeatsTheDigest := by
  intro p a bs s
  rw [runScript_cons_of_next _ _ s _ (exec_new p a s), runScript_updates_finalize bs _ _ rfl,
    runScript_cons_of_next _ _ _ _ (exec_reset_of_engine _ rfl), runScript_updates_finalize bs _ _ rfl, runScript_nil]
  refine ⟨_, rfl, ?_⟩
  simp [digest32]

end Sys2Proof.Machine
end

section
/-!
PROOFS. The byte-folding update (42_engine_update.md R83 to R91): the index of a fold, the effect of `UPDATE`, folding in
chunks, the slice of `UPDATEBUF`, and tables on which a fold loses nothing of the accumulator.
-/

namespace Sys2Proof.Machine

/-! ## The index of a fold (R83, R88) -/

/-- The low byte of a word, zero-extended, is the word under the mask 0xFF. -/
theorem zext32_low_byte (a : Word) : zext32 (a.extractLsb' 0 8) = a &&& 0xFF#32 := by
  apply BitVec.eq_of_toNat_eq
  have hmask : a.toNat &&& 255 = a.toNat % 256 := Nat.and_two_pow_sub_one_eq_mod a.toNat 8
  simp [zext32, hmask]
  omega

theorem zext32_foldIndex (a : Word) (b : Byte) : zext32 (foldIndex a b) = (a &&& 0xFF#32) ^^^ zext32 b := by
  rw [← zext32_low_byte]
  exact BitVec.setWidth_xor

/-- Settles O39: an index has 8 bits, and zero extension carries the XOR over. -/
theorem foldIndexIsInRange : Obligations.FoldIndexIsInRange :=
  fun a b => ⟨(foldIndex a b).isLt, zext32_foldIndex a b⟩

/-! ## `UPDATE` (R85) -/

/-- A byte equal to the low byte of the accumulator selects entry 0, which is 0 in every built table. -/
theorem fold1_buildTable_low_byte (p a : Word) : fold1 (buildTable p) a (a.extractLsb' 0 8) = a >>> 8 := by
  rw [fold1, foldIndex, BitVec.xor_self, entryAt_buildTable, entry_zero_index, BitVec.xor_zero]

/-- Settles O16: `EVALID` decides, and under the invariant the table is a built one. -/
theorem updateResult : Obligations.UpdateResult := by
  refine ⟨exec_update_of_engine, fun b s he => s.withEngine_of_no_engine _ he, fun _ => rfl, ?_⟩
  intro s ⟨_, hlive, htable⟩ he
  refine ⟨_, exec_update_of_engine _ s he, ?_⟩
  rw [State.respond_acc, State.setAcc_acc, htable (hlive he), fold1_buildTable_low_byte]

/-! ## Chunks (R86, R89) -/

theorem fold_flatten (T : Memory) (chunks : List (List Byte)) :
    ∀ a, fold T a chunks.flatten = chunks.foldl (fold T) a := by
  induction chunks with
  | nil => intro a; rfl
  | cons xs chunks ih =>
    intro a
    rw [List.flatten_cons, fold_append, List.foldl_cons]
    exact ih (fold T a xs)

theorem updates_append (xs ys : List Byte) : updates (xs ++ ys) = updates xs ++ updates ys := List.map_append

/-- Settles O40: a split at one place, at any number of places, and in commands. -/
theorem chunkingDoesNotMatter : Obligations.ChunkingDoesNotMatter :=
  ⟨fun T a xs ys => fold_append T xs ys a, fun T a chunks => fold_flatten T chunks a, updates_append⟩

/-- Settles O41, by the run of the commands of `UPDATES`. -/
theorem updatesFoldsTheChunk : Obligations.UpdatesFoldsTheChunk := ⟨runScript_updates, rfl, runScript_nil⟩

/-! ## `UPDATEBUF` (R87) -/

/-- Index `k` of a slice is index `start + k` of the buffer. -/
theorem bufferSlice_getElem? {α : Type} (buf : List α) (start length k : Nat) (hk : k < length) :
    (bufferSlice buf start length)[k]? = buf[start + k]? := by
  rw [bufferSlice, List.getElem?_take_of_lt hk, List.getElem?_drop]

theorem bufferSlice_length {α : Type} (buf : List α) (start length : Nat) (h : start + length ≤ buf.length) :
    (bufferSlice buf start length).length = length := by
  rw [bufferSlice, List.length_take, List.length_drop]
  omega

/-- Settles O52: the range check of the line, and the slice behind it. -/
theorem updatebufTakesStartToStartPlusLength : Obligations.UpdatebufTakesStartToStartPlusLength := by
  intro buf start length hbuf
  have hline := assemble_eq_ite _ _ (ScriptLine.updatebuf_wellFormed_iff buf start length)
  refine ⟨fun hin => ⟨_, hline.trans (if_pos ⟨hbuf, hin⟩), ?_, fun k hk => ?_⟩, fun hout => ?_⟩
  · rw [ScriptLine.expand, updates_bytesOf, List.length_map, bufferSlice_length buf start length hin]
  · rw [ScriptLine.expand, updates_bytesOf, List.getElem?_map, bufferSlice_getElem? buf start length k hk]
  · exact hline.trans (if_neg fun ⟨_, hin⟩ => Nat.not_le_of_lt hout hin)

/-! ## Folding as a map of the accumulator (R91) -/

/-- A word is its low byte and the rest. -/
theorem word_eq_of_low_byte_of_shift (a a' : Word) (hlow : a.extractLsb' 0 8 = a'.extractLsb' 0 8)
    (hrest : a >>> 8 = a' >>> 8) : a = a' := by
  have hlow' := congrArg BitVec.toNat hlow
  have hrest' := congrArg BitVec.toNat hrest
  simp only [BitVec.extractLsb'_toNat, BitVec.toNat_ushiftRight, Nat.shiftRight_eq_div_pow] at hlow' hrest'
  apply BitVec.eq_of_toNat_eq
  omega

/-- The shifted accumulator brings nothing into the top byte, so that byte is the entry's own. -/
theorem fold1_top_byte (T : Memory) (a : Word) (b : Byte) :
    (fold1 T a b).extractLsb' 24 8 = (T.entryAt (foldIndex a b)).extractLsb' 24 8 := by
  have hshift : (a >>> 8).extractLsb' 24 8 = 0#8 := by
    apply BitVec.eq_of_getLsbD_eq
    intro i hi
    simp [BitVec.getLsbD_of_ge a (8 + (24 + i)) (by omega)]
  rw [fold1, BitVec.extractLsb'_xor, hshift, BitVec.zero_xor]

/-- The top byte of the result gives the index back, and the index gives back both halves of the accumulator. -/
theorem fold1_injective (T : Memory) (hT : distinctTopBytes T) (b : Byte) :
    Function.Injective fun a => fold1 T a b := by
  intro a a' (h : fold1 T a b = fold1 T a' b)
  have hindex : foldIndex a b = foldIndex a' b := hT _ _ (by rw [← fold1_top_byte, h, fold1_top_byte])
  have hlow : a.extractLsb' 0 8 = a'.extractLsb' 0 8 := (BitVec.xor_left_inj b).mp hindex
  have hrest : a >>> 8 = a' >>> 8 := by
    rw [fold1, fold1, hindex] at h
    exact (BitVec.xor_left_inj _).mp h
  exact word_eq_of_low_byte_of_shift a a' hlow hrest

theorem fold1_bijective (T : Memory) (hT : distinctTopBytes T) (b : Byte) :
    Function.Bijective fun a => fold1 T a b :=
  Finite.injective_iff_bijective.mp (fold1_injective T hT b)

theorem fold_bijective (T : Memory) (hT : distinctTopBytes T) (bs : List Byte) :
    Function.Bijective fun a => fold T a bs := by
  induction bs with
  | nil => exact Function.bijective_id
  | cons b bs ih => exact ih.comp (fold1_bijective T hT b)

/-- Entries are linear in the index, so two of them share a top byte only if the entry between them has top byte 0. -/
theorem distinctTopBytes_buildTable (p : Word) (h : ∀ i, (entry p i).extractLsb' 24 8 = 0#8 → i = 0#8) :
    distinctTopBytes (buildTable p) := by
  intro i j hij
  rw [entryAt_buildTable, entryAt_buildTable] at hij
  have htop : (entry p (i ^^^ j)).extractLsb' 24 8 = 0#8 := by
    rw [entry_xor, BitVec.extractLsb'_xor, hij, BitVec.xor_self]
  exact BitVec.xor_eq_zero_iff.mp (h _ htop)

theorem distinctTopBytes_defaultTable : distinctTopBytes (buildTable 0xEDB88320#32) :=
  distinctTopBytes_buildTable _ (by decide)

/-- Every entry of polynomial 0 is 0. -/
theorem not_distinctTopBytes_zeroPoly : ¬ distinctTopBytes (buildTable 0#32) := by
  intro h
  have h01 : (0#8 : Byte) = 1#8 := h 0#8 1#8 (by simp only [entryAt_buildTable, entry_zeroPoly])
  exact absurd h01 (by decide)

/-- Settles O42: the shift and the entry of the index determine the accumulator, and a finite injection is a bijection. -/
theorem foldIsBijectiveInAccumulator : Obligations.FoldIsBijectiveInAccumulator :=
  ⟨fun T hT => ⟨fold1_bijective T hT, fold_bijective T hT⟩, distinctTopBytes_defaultTable,
    not_distinctTopBytes_zeroPoly⟩

end Sys2Proof.Machine
end

section
/-!
PROOFS. Finalisation (43_engine_finalize.md R93 to R99): what `FINALIZE` and `FINALIZE32` answer, the byte form and the word
form of a digest, and the digests a host reads between updates.
-/

namespace Sys2Proof.Machine

/-! ## The two commands (R95, R96) -/

/-- Settles O17: `EVALID` decides, and `NEW` has made `ACC` the seed. -/
theorem finalizeResult : Obligations.FinalizeResult := by
  refine ⟨exec_finalize_of_engine, fun s he => s.withEngine_of_no_engine _ he, rfl, fun p a s t h => ?_⟩
  cases h
  exact exec_finalize_of_engine _ rfl

/-- Settles O18: `EVALID` decides, and `NEW` has made `ACC` the seed. -/
theorem finalize32Result : Obligations.Finalize32Result := by
  refine ⟨exec_finalize32_of_engine, fun s he => s.withEngine_of_no_engine _ he, rfl, fun p a s t h => ?_⟩
  cases h
  exact exec_finalize32_of_engine _ rfl

/-! ## The bytes and the word of a digest (R94, R98, R99) -/

/-- The four bytes of a word, put together most significant first, are the word. -/
theorem beValue_serBe (w : Word) : beValue (serBe w) = w := by
  calc beValue (serBe w)
      = w.extractLsb' 24 8 ++ w.extractLsb' 16 8 ++ w.extractLsb' 8 8 ++ w.extractLsb' 0 8 := rfl
    _ = w.extractLsb' 0 32 := by
      rw [BitVec.extractLsb'_append_extractLsb'_eq_extractLsb' (start₂ := 24) rfl,
        BitVec.extractLsb'_append_extractLsb'_eq_extractLsb' (start₂ := 16) rfl,
        BitVec.extractLsb'_append_extractLsb'_eq_extractLsb' (start₂ := 8) rfl]
    _ = w := BitVec.extractLsb'_eq_self

/-- A slice of eight bits that lies in one of four concatenated bytes is that byte. -/
theorem serBe_append (d0 d1 d2 d3 : Byte) : serBe (d0 ++ d1 ++ d2 ++ d3) = #v[d0, d1, d2, d3] := by
  simp (disch := decide) only [serBe, BitVec.extractLsb'_append_eq_of_le, BitVec.extractLsb'_append_eq_of_add_le,
    BitVec.extractLsb'_eq_self, Nat.reduceSub]

theorem serBe_beValue (ds : Vector Byte 4) : serBe (beValue ds) = ds := by
  rw [beValue, serBe_append]
  ext k hk
  match k, hk with
  | 0, _ | 1, _ | 2, _ | 3, _ => rfl

/-- Eight bits of a word, zero-extended, are the word shifted down to them under the mask 0xFF. -/
theorem zext32_extract_byte (w : Word) (n : Nat) : zext32 (w.extractLsb' n 8) = (w >>> n) &&& 0xFF#32 := by
  rw [← zext32_low_byte]
  rfl

/-- Settles O44: both commands answer a form of the complement of `ACC`, which gives `ACC` back. -/
theorem digestFormsAgree : Obligations.DigestFormsAgree := by
  refine ⟨beValue_serBe, serBe_beValue, fun s t u ht hu => ?_⟩
  obtain ⟨-, rfl⟩ := (s.withEngine_next_iff _ _).mp ht
  obtain ⟨-, rfl⟩ := (s.withEngine_next_iff _ _).mp hu
  exact ⟨_, _, rfl, rfl, rfl, (beValue_serBe _).symm, BitVec.not_not.symm⟩

/-! ## Finalising within a script (R97, R99) -/

theorem runScript_finalize_cons (cs : List Instr) (s : State) (he : s.evalid = true) :
    runScript (.finalize :: cs) s = runScript cs (s.respond (.bytes4 (serBe (digest32 s.acc)))) :=
  runScript_cons_of_next _ _ s _ (exec_finalize_of_engine s he)

theorem runScript_finalize32_cons (cs : List Instr) (s : State) (he : s.evalid = true) :
    runScript (.finalize32 :: cs) s = runScript cs (s.respond (.word (digest32 s.acc))) :=
  runScript_cons_of_next _ _ s _ (exec_finalize32_of_engine s he)

/-- `UPDATES bs; FINALIZE32` with more to follow: one pass over the bytes, and its digest as a word. -/
theorem runScript_updates_finalize32 (bs : List Byte) (cs : List Instr) (s : State) (he : s.evalid = true) :
    runScript (updates bs ++ .finalize32 :: cs) s = runScript cs { s with
      acc := fold s.table s.acc bs
      responses := s.responses ++ (List.replicate bs.length Response.ack
        ++ [Response.word (digest32 (fold s.table s.acc bs))]) } := by
  refine (runScript_append_of_next _ _ s _ (runScript_updates bs s he)).trans ?_
  refine (runScript_finalize32_cons cs _ (by exact he)).trans ?_
  simp [State.respond]

/-- Settles O45: a response leaves `ACC` for the next finalisation, and the second chunk continues the fold of the first. -/
theorem prefixDigestsAreReadable : Obligations.PrefixDigestsAreReadable := by
  refine ⟨fun s he => ?_, fun xs ys s he => ?_⟩
  · rw [runScript_finalize_cons _ s he, runScript_finalize32_cons _ (s.respond _) he,
      runScript_finalize_cons _ ((s.respond _).respond _) he,
      runScript_finalize32_cons _ (((s.respond _).respond _).respond _) he, runScript_nil]
    refine ⟨_, rfl, ⟨rfl, rfl, rfl, rfl, rfl, rfl⟩, ?_⟩
    simp [digest32]
  · rw [runScript_updates_finalize32 xs _ s he, runScript_updates_finalize32 ys _ _ (by exact he), runScript_nil]
    refine ⟨_, rfl, (fold_append s.table xs ys s.acc).symm, ?_⟩
    simp [digest32, fold_append]

/-- Settles O46: `NEW` leaves the seed in `ACC`, and each byte answered is a slice of its complement. -/
theorem serialisationIsShiftAndMask : Obligations.SerialisationIsShiftAndMask := by
  intro p a s
  rw [runScript_cons_of_next _ _ s _ (exec_new p a s), runScript_finalize_cons _ _ rfl, runScript_nil]
  exact ⟨_, _, rfl, List.append_assoc .., zext32_extract_byte _ 24, zext32_extract_byte _ 16, zext32_extract_byte _ 8,
    zext32_low_byte _⟩

end Sys2Proof.Machine
end

section
/-!
PROOFS. One-shot computation (44_oneshot_compute.md R100 to R111): the common expansion as one run, its value as a function
of the seed and the bytes, and the lines that assemble to it.
-/

namespace Sys2Proof.Machine

/-! ## The expansion as a run (R103, R111) -/

/-- `NEW` builds the table and starts the accumulator at the seed, the updates fold the bytes on that table, and
`FINALIZE32` answers without a write. -/
theorem runScript_oneshot (p a : Word) (bs : List Byte) (s : State) :
    runScript (oneshot p a bs) s = .next { s with
      poly := p, tvalid := true, table := buildTable p
      seed := a, acc := fold (buildTable p) a bs, evalid := true
      responses := s.responses
        ++ (List.replicate (bs.length + 1) Response.ack ++ [Response.word (compute p a bs)]) } := by
  have hacks : ∀ rs : List Response, s.responses ++ (List.replicate (bs.length + 1) Response.ack ++ rs)
      = (s.responses ++ [Response.ack]) ++ (List.replicate bs.length Response.ack ++ rs) := by
    simp [List.replicate_succ]
  rw [hacks, oneshot, runScript_cons_of_next _ _ s _ (exec_new p a s), runScript_updates_finalize32 bs [] _ rfl]
  rfl

/-- Settles O48, from the run of the expansion. -/
theorem oneshotExpansionComputes : Obligations.OneshotExpansionComputes := fun p a bs s =>
  ⟨by simp [oneshot, updates], _, runScript_oneshot p a bs s, rfl, rfl, rfl, rfl, rfl, rfl, rfl⟩

/-- Chunk after chunk, `UPDATES` issues the commands of the concatenation. -/
theorem updates_flatten (chunks : List (List Byte)) : (chunks.map updates).flatten = updates chunks.flatten :=
  List.map_flatten.symm

/-- The last of the responses given is the last of those that a script adds. -/
theorem getLast?_responses (before added : List Response) (r : Response) :
    (before ++ (added ++ [r])).getLast? = some r := by
  simp

/-- Settles O49: any split into chunks is the commands of one chunk, so with `FINALIZE32` the script is the one-shot itself,
and with `FINALIZE` it ends with the same digest as bytes. -/
theorem incrementalEqualsOneshot : Obligations.IncrementalEqualsOneshot := by
  intro p a chunks s
  rw [updates_flatten]
  constructor
  · exact ⟨_, runScript_oneshot p a chunks.flatten s, getLast?_responses ..⟩
  · rw [runScript_cons_of_next _ _ s _ (exec_new p a s), runScript_updates_finalize _ [] _ rfl]
    exact ⟨_, runScript_nil _, getLast?_responses ..⟩

/-! ## The value (R105, R109, R110) -/

/-- The complement of a result is the accumulator it was read from. -/
theorem not_compute (p a : Word) (bs : List Byte) : ~~~(compute p a bs) = fold (buildTable p) a bs := BitVec.not_not

/-- Settles O50: the complement of the first result is where the fold of the second bytes takes up. -/
theorem computeChainsThroughComplement : Obligations.ComputeChainsThroughComplement := by
  refine ⟨fun p a xs ys => ?_, fun _ _ => rfl⟩
  rw [not_compute, compute, compute, fold_append]

/-- On a table whose entries differ in their top bytes the seed can be told from the result (42_engine_update.md R91). -/
theorem compute_injective_in_seed (p : Word) (hT : distinctTopBytes (buildTable p)) (bs : List Byte) :
    Function.Injective fun a => compute p a bs := by
  intro a a' (h : compute p a bs = compute p a' bs)
  have hfold : fold (buildTable p) a bs = fold (buildTable p) a' bs := by rw [← not_compute, ← not_compute, h]
  exact (fold_bijective _ hT bs).injective hfold

/-- Settles O51: the default table loses nothing of the seed, and the table of polynomial 0 keeps nothing of it after four
bytes. -/
theorem seedSensitivity : Obligations.SeedSensitivity := by
  refine ⟨fun a a' bs hne => (compute_injective_in_seed _ distinctTopBytes_defaultTable bs).ne hne, fun a a' bs h => ?_⟩
  rw [compute_zeroPoly a bs h, compute_zeroPoly a' bs h]

/-! ## The lines (R104 to R106) -/

/-- Settles O54: operands in range pass the check of each line. -/
theorem oneshotLinesUseDefaults : Obligations.OneshotLinesUseDefaults := by
  intro p a bs hp ha hbs
  refine ⟨?_, ?_, ?_⟩
  · exact (assemble_eq_ite (.compute1 bs) _ (all_fitsByte_iff bs)).trans (if_pos hbs)
  · exact (assemble_eq_ite (.compute2 a bs) _ (ScriptLine.compute2_wellFormed_iff a bs)).trans (if_pos ⟨ha, hbs⟩)
  · exact (assemble_eq_ite (.compute3 p a bs) _ (ScriptLine.compute3_wellFormed_iff p a bs)).trans (if_pos ⟨hp, ha, hbs⟩)

end Sys2Proof.Machine
end

section
/-!
PROOFS. Refusals (60_exceptions.md R113 to R118): which command is refused and under what name, and that a step is a next
state or one of the three refusals.
-/

namespace Sys2Proof.Machine

/-! ## Commands (R114) -/

/-- The commands whose precondition is `EVALID = 1` (R114). -/
abbrev NeedsEngine (i : Instr) : Prop := i = .reset ∨ (∃ b, i = .update b) ∨ i = .finalize ∨ i = .finalize32

/-- A command that needs an engine is refused exactly when there is none, by that name. -/
theorem State.withEngine_refused_iff (s t : State) (r : Refusal) :
    s.withEngine t = .refused r ↔ s.evalid = false ∧ r = .noEngine := by
  unfold State.withEngine
  cases s.evalid <;> simp [eq_comm]

/-- A command that needs a table is refused exactly when there is none, by that name. -/
theorem State.withTable_refused_iff (s t : State) (r : Refusal) :
    s.withTable t = .refused r ↔ s.tvalid = false ∧ r = .noTable := by
  unfold State.withTable
  cases s.tvalid <;> simp [eq_comm]

theorem State.exists_withEngine_next_iff (s t : State) : (∃ u, s.withEngine t = .next u) ↔ s.evalid = true := by
  simp [State.withEngine_next_iff]

theorem State.exists_withTable_next_iff (s t : State) : (∃ u, s.withTable t = .next u) ↔ s.tvalid = true := by
  simp [State.withTable_next_iff]

/-- Each command tests the valid bit that `ready` names for it, and nothing else (R114). -/
theorem exists_exec_next_iff_ready (i : Instr) (s : State) : (∃ t, exec i s = .next t) ↔ ready i s = true := by
  cases i with
  | tbuild p => exact iff_of_true ⟨_, exec_tbuild p s⟩ rfl
  | new p a => exact iff_of_true ⟨_, exec_new p a s⟩ rfl
  | reset => exact s.exists_withEngine_next_iff _
  | update b => exact s.exists_withEngine_next_iff _
  | finalize => exact s.exists_withEngine_next_iff _
  | finalize32 => exact s.exists_withEngine_next_iff _
  | tread b => exact s.exists_withTable_next_iff _

/-- Without an engine the commands that need one are refused (R114). -/
theorem exec_of_no_engine (i : Instr) (s : State) (hi : NeedsEngine i) (he : s.evalid = false) :
    exec i s = .refused .noEngine := by
  obtain rfl | ⟨b, rfl⟩ | rfl | rfl := hi
  all_goals exact s.withEngine_of_no_engine _ he

/-- Everything a refusal of a command can be, with the valid bit that is missing. -/
theorem exec_refused_cases (i : Instr) (s : State) (r : Refusal) (h : exec i s = .refused r) :
    (∃ b, i = .tread b ∧ s.tvalid = false ∧ r = .noTable) ∨ (NeedsEngine i ∧ s.evalid = false ∧ r = .noEngine) := by
  cases i with
  | tbuild p => cases h
  | new p a => cases h
  | reset => exact .inr ⟨.inl rfl, (s.withEngine_refused_iff _ r).mp h⟩
  | update b => exact .inr ⟨.inr (.inl ⟨b, rfl⟩), (s.withEngine_refused_iff _ r).mp h⟩
  | finalize => exact .inr ⟨.inr (.inr (.inl rfl)), (s.withEngine_refused_iff _ r).mp h⟩
  | finalize32 => exact .inr ⟨.inr (.inr (.inr rfl)), (s.withEngine_refused_iff _ r).mp h⟩
  | tread b => exact .inl ⟨b, rfl, (s.withTable_refused_iff _ r).mp h⟩

/-- Settles O21: a command completes when its valid bit is 1 and is refused by that bit's name when it is 0. -/
theorem completesExactlyWhenReady : Obligations.CompletesExactlyWhenReady :=
  ⟨exists_exec_next_iff_ready, exec_tread_of_no_table, exec_of_no_engine, fun _ _ _ => ⟨rfl, rfl⟩⟩

/-! ## Steps (R113, R115, R118) -/

/-- Everything a refusal of a step can be: the word is reserved, or its command lacks its table or its engine. -/
theorem step_refused_cases (s : State) (r : Refusal) (h : step s = .refused r) :
    (∃ w rest why, s.input = .command w :: rest ∧ decode w = .reserved why ∧ r = .reserved why) ∨
    (∃ w rest b, s.input = .command w :: rest ∧ decode w = .command (.tread b) ∧ s.tvalid = false ∧ r = .noTable) ∨
    (∃ w rest i, s.input = .command w :: rest ∧ decode w = .command i ∧ s.evalid = false ∧ NeedsEngine i
      ∧ r = .noEngine) := by
  cases hi : s.input with
  | nil => rw [step_of_idle s hi] at h; cases h
  | cons e rest =>
    cases e with
    | hardwareReset => rw [step_of_hardwareReset s rest hi] at h; cases h
    | command w =>
      cases hd : decode w with
      | reserved why =>
        rw [step_of_reserved s w rest why hi hd] at h
        cases h
        exact .inl ⟨w, rest, why, rfl, hd, rfl⟩
      | command i =>
        rw [step_of_command s w rest i hi hd] at h
        obtain ⟨b, rfl, hv, hr⟩ | ⟨hn, he, hr⟩ := exec_refused_cases i _ r h
        · exact .inr (.inl ⟨w, rest, b, rfl, hd, hv, hr⟩)
        · exact .inr (.inr ⟨w, rest, i, rfl, hd, he, hn, hr⟩)

theorem step_refused_reserved_iff (s : State) (why : Reserved) :
    step s = .refused (.reserved why) ↔ ∃ w rest, s.input = .command w :: rest ∧ decode w = .reserved why := by
  constructor
  · intro h
    obtain ⟨w, rest, _, hi, hd, ⟨⟩⟩ | ⟨_, _, _, _, _, _, ⟨⟩⟩ | ⟨_, _, _, _, _, _, _, ⟨⟩⟩ := step_refused_cases s _ h
    exact ⟨w, rest, hi, hd⟩
  · rintro ⟨w, rest, hi, hd⟩
    exact step_of_reserved s w rest why hi hd

theorem step_refused_noTable_iff (s : State) :
    step s = .refused .noTable ↔
      ∃ w rest b, s.input = .command w :: rest ∧ decode w = .command (.tread b) ∧ s.tvalid = false := by
  constructor
  · intro h
    obtain ⟨_, _, _, _, _, ⟨⟩⟩ | ⟨w, rest, b, hi, hd, hv, -⟩ | ⟨_, _, _, _, _, _, _, ⟨⟩⟩ := step_refused_cases s _ h
    exact ⟨w, rest, b, hi, hd, hv⟩
  · rintro ⟨w, rest, b, hi, hd, hv⟩
    exact (step_of_command s w rest _ hi hd).trans (exec_tread_of_no_table b _ hv)

theorem step_refused_noEngine_iff (s : State) :
    step s = .refused .noEngine ↔
      ∃ w rest i, s.input = .command w :: rest ∧ decode w = .command i ∧ s.evalid = false ∧ NeedsEngine i := by
  constructor
  · intro h
    obtain ⟨_, _, _, _, _, ⟨⟩⟩ | ⟨_, _, _, _, _, _, ⟨⟩⟩ | ⟨w, rest, i, hi, hd, he, hn, -⟩ := step_refused_cases s _ h
    exact ⟨w, rest, i, hi, hd, he, hn⟩
  · rintro ⟨w, rest, i, hi, hd, he, hn⟩
    exact (step_of_command s w rest i hi hd).trans (exec_of_no_engine i _ hn he)

/-- A step goes on or is refused by one of three names: there is no fault to answer (R113). -/
theorem step_outcomes (s : State) :
    (∃ t, step s = .next t) ∨ (∃ why, step s = .refused (.reserved why)) ∨ step s = .refused .noTable
      ∨ step s = .refused .noEngine := by
  cases h : step s with
  | next t => exact .inl ⟨t, rfl⟩
  | fault r => exact nomatch r
  | refused r =>
    obtain ⟨_, _, why, -, -, rfl⟩ | ⟨_, _, _, -, -, -, rfl⟩ | ⟨_, _, _, -, -, -, -, rfl⟩ := step_refused_cases s r h
    · exact .inr (.inl ⟨why, rfl⟩)
    · exact .inr (.inr (.inl rfl))
    · exact .inr (.inr (.inr rfl))

/-- Settles O11: the outcomes, and where each refusal is due. -/
theorem stepIsNextOrNamedRefusal : Obligations.StepIsNextOrNamedRefusal :=
  ⟨step_outcomes, step_refused_reserved_iff, step_refused_noTable_iff, step_refused_noEngine_iff⟩

end Sys2Proof.Machine
end

section
/-!
PROOFS. Several copies of the block (60_exceptions.md R122): a step of one copy touches no other, and each
copy keeps the source that its own hardware reset gave it.
-/

namespace Sys2Proof.Machine

/-- A copy that does not step stays as it is. -/
theorem System.step_get_of_ne (sys : System) (j k : Fin Config.numInstances) (h : j ≠ k) :
    (sys.step k)[j] = sys[j] :=
  Vector.getElem_set_ne _ _ fun hv => h (Fin.ext hv.symm)

/-- Two different copies that step, one after the other, both step from where they were. -/
theorem System.step_step_of_ne (sys : System) (j k : Fin Config.numInstances) (h : j ≠ k) :
    (sys.step j).step k = (sys.set j (Copy.step sys[j])).set k (Copy.step sys[k]) := by
  rw [System.step, sys.step_get_of_ne k j h.symm, System.step]

theorem System.step_comm (sys : System) (j k : Fin Config.numInstances) (h : j ≠ k) :
    (sys.step j).step k = (sys.step k).step j := by
  rw [sys.step_step_of_ne j k h, sys.step_step_of_ne k j h.symm]
  exact Vector.set_comm _ _ fun hv => h (Fin.ext hv)

/-- Settles O36. The vector of copies is the model's own form of a system (assumption 11). -/
theorem instancesShareNothing : Obligations.InstancesShareNothing := by
  refine ⟨fun sys k s hs => ⟨fun t ht => ?_, fun r hr => ?_⟩, System.step_get_of_ne, System.step_comm⟩
  · rw [System.step_get, hs, Copy.step_of_next s t ht]
  · rw [System.step_get, hs, Copy.step_of_refused s r hr]

/-- At reset copy `k` draws its free values from source `k`. -/
theorem System.reset_source (k : Fin Config.numInstances) (s : State) (h : System.reset[k] = .running s) :
    s.source = k := by
  rw [System.reset_get] at h
  cases h
  rfl

/-- A copy that runs after a step of the system, its own or another's, ran before it with the same source. -/
theorem System.step_keeps_source (sys : System) (j k : Fin Config.numInstances) (t : State)
    (h : (sys.step k)[j] = .running t) : ∃ s, sys[j] = .running s ∧ t.source = s.source := by
  by_cases hj : j = k
  · subst hj
    rw [System.step_get] at h
    obtain ⟨s, hs, hstep⟩ := Copy.step_running_cases _ t h
    exact ⟨s, hs, step_source s t hstep⟩
  · rw [sys.step_get_of_ne j k hj] at h
    exact ⟨t, h, rfl⟩

theorem System.reset_sourcesApart : System.reset.sourcesApart := by
  intro j k s t hs ht h
  rw [System.reset_source j s hs, System.reset_source k t ht] at h
  exact Fin.ext h

theorem System.step_keeps_sourcesApart (sys : System) (k : Fin Config.numInstances) (hsys : sys.sourcesApart) :
    (sys.step k).sourcesApart := by
  intro i j s t hs ht h
  obtain ⟨s', hs', hssrc⟩ := sys.step_keeps_source i k s hs
  obtain ⟨t', ht', htsrc⟩ := sys.step_keeps_source j k t ht
  exact hsys i j s' t' hs' ht' (by rw [← hssrc, ← htsrc, h])

/-- Settles O56. The sources of free values are the model's own (assumptions 11 and 12). -/
theorem copiesStartResetWithOwnSources : Obligations.CopiesStartResetWithOwnSources :=
  ⟨fun k => ⟨_, System.reset_get k, rfl, rfl⟩, System.reset_sourcesApart, System.step_keeps_sourcesApart⟩

end Sys2Proof.Machine
end

section
/-!
PROOFS. What the two ends of an engine leave to the host: the hardware reset (70_reset_and_hazards.md R126), after which only
a build completes, and `TBUILD` under a live engine (R130).
-/

namespace Sys2Proof.Machine

/-- With neither a table nor an engine, exactly the two builds meet their precondition (60_exceptions.md R114). -/
theorem ready_iff_build_of_no_table_no_engine (i : Instr) (s : State) (hv : s.tvalid = false) (he : s.evalid = false) :
    ready i s = true ↔ (∃ p, i = .tbuild p) ∨ (∃ p a, i = .new p a) := by
  cases i with
  | tbuild p => exact iff_of_true rfl (.inl ⟨p, rfl⟩)
  | new p a => exact iff_of_true rfl (.inr ⟨p, a, rfl⟩)
  | reset | update | finalize | finalize32 => simp [ready, he]
  | tread b => simp [ready, hv]

/-- Settles O8: the reset leaves both valid bits 0, and with them `ready` holds of the two builds alone. The canonical store
rests on assumption 2, the list of responses on assumption 4, the event taken off the input on assumptions 3 and 6. -/
theorem hardwareResetEndsEngineAndTable : Obligations.HardwareResetEndsEngineAndTable := by
  intro s rest hi
  refine ⟨_, step_of_hardwareReset s rest hi, rfl, rfl, rfl, rfl, Memory.writeAll_wf _, fun i => ?_⟩
  exact (exists_exec_next_iff_ready i _).trans (ready_iff_build_of_no_table_no_engine i _ rfl rfl)

/-- `TBUILD` ends the engine, so a command that needs one is refused right after it, whatever the state before (R130). -/
theorem runScript_tbuild_needsEngine (p : Word) (i : Instr) (s : State) (hi : NeedsEngine i) :
    runScript [.tbuild p, i] s = .refused .noEngine := by
  rw [runScript_cons_of_next _ _ s _ (exec_tbuild p s)]
  exact runScript_cons_of_refused i [] _ _ (exec_of_no_engine i _ hi rfl)

/-- Settles O23, for each of the four commands that need an engine. -/
theorem tbuildEndsLiveEngine : Obligations.TbuildEndsLiveEngine := fun p b s =>
  ⟨runScript_tbuild_needsEngine p _ s (.inr (.inl ⟨b, rfl⟩)),
    runScript_tbuild_needsEngine p _ s (.inr (.inr (.inl rfl))),
    runScript_tbuild_needsEngine p _ s (.inr (.inr (.inr rfl))), runScript_tbuild_needsEngine p _ s (.inl rfl)⟩

end Sys2Proof.Machine
end
